-- ==== Sys2Proof/Word.lean ====
section
/-! DEFINITION. The bit-vector types of ENDCONV's ports and of buffer memory (spec 00 R9, 10 R28, 20 R40). -/

namespace Sys2Proof

/-- One byte of a byte-lane port or of buffer memory. -/
abbrev Byte := BitVec 8

/-- A value port, VAL or RVAL: 64 bits, the widest native type (00 R9). -/
abbrev Word := BitVec 64

/-- The command word CW: 32 bits (30 R70). -/
abbrev CommandWord := BitVec 32

/-- The eight lanes of a byte-lane port, BYTES or RBYTES; lane `j` is array index `j` (00 R12, 10 R28). -/
abbrev Lanes := Vector Byte 8

end Sys2Proof
end

