-- ==== Sys2Proof/Syntax.lean ====
section
/-! DEFINITION. The 17 commands of spec 30 R77 with their operands `T` and `N`, the native types (00 R8,
30 R74), the formats (30 R70) and the names of the conditions that make a request illegal (30 R81). -/

namespace Sys2Proof

/-- The ten native types (00 R8, 30 R74). -/
inductive NType where
  | u8 | u16 | u32 | u64 | i8 | i16 | i32 | i64 | f32 | f64
deriving DecidableEq, Repr

/-- The native width `W` in bits (30 R74). The class of the type plays no part in it. -/
def NType.width : NType → Nat
  | .u8 | .i8 => 8
  | .u16 | .i16 => 16
  | .u32 | .i32 | .f32 => 32
  | .u64 | .i64 | .f64 => 64

/-- The three formats of a command word (30 R70). -/
inductive Format where
  /-- uses OP and N -/
  | W
  /-- uses OP and T -/
  | T
  /-- uses OP, T and N -/
  | TN
deriving DecidableEq, Repr

/-- The 17 operations, in the order of the opcode table (30 R77). -/
inductive Op where
  | nbytes | bitw | mask | vmask | fromp
  | ntom | ntol | mton | lton
  | packm | packl | unpkm | unpkl
  | packsm | packsl | unpksm | unpksl
deriving DecidableEq, Repr

/-- A command: one constructor per row of the opcode table, with the native type `t` and the 7-bit
field `n` (the declared bit width N, 30 R72) where its format has them. -/
inductive Instr where
  | nbytes (n : BitVec 7)
  | bitw (n : BitVec 7)
  | mask (n : BitVec 7)
  | vmask (t : NType) (n : BitVec 7)
  | fromp (t : NType) (n : BitVec 7)
  | ntom (t : NType)
  | ntol (t : NType)
  | mton (t : NType)
  | lton (t : NType)
  | packm (t : NType) (n : BitVec 7)
  | packl (t : NType) (n : BitVec 7)
  | unpkm (t : NType) (n : BitVec 7)
  | unpkl (t : NType) (n : BitVec 7)
  | packsm (t : NType) (n : BitVec 7)
  | packsl (t : NType) (n : BitVec 7)
  | unpksm (t : NType) (n : BitVec 7)
  | unpksl (t : NType) (n : BitVec 7)
deriving DecidableEq, Repr

/-- The conditions (a) to (g) of 30 R81. -/
inductive IllegalCond where
  /-- (a) OP is not one of the 17 opcodes -/
  | opcode
  /-- (b) CW[31:19] is not zero -/
  | reservedBits
  /-- (c) format W and T is not zero -/
  | typeNotZero
  /-- (d) format T or TN and T is a reserved code -/
  | reservedType
  /-- (e) format T and N is not zero -/
  | widthNotZero
  /-- (f) N is outside the command's range -/
  | widthRange
  /-- (g) a slice command with ADDR + LEN > 2^ABITS -/
  | sliceWrap
deriving DecidableEq, Repr

end Sys2Proof
end

