-- ==== Sys2Proof/WellFormed.lean ====
section
/-! DEFINITION. Which commands the spec admits: the legal range of `N` per command (spec 30 R79). -/

namespace Sys2Proof

/-- `N` is within the command's range (30 R79). MASK takes every encodable N, the native conversions
have none, NBYTES and BITW take 1 to 64, a typed command 1 to `W`. -/
def Instr.wf : Instr → Bool
  | .mask _ => true
  | .ntom _ | .ntol _ | .mton _ | .lton _ => true
  | .nbytes n | .bitw n => 1 ≤ n.toNat && n.toNat ≤ 64
  | .vmask t n | .fromp t n => 1 ≤ n.toNat && n.toNat ≤ t.width
  | .packm t n | .packl t n | .unpkm t n | .unpkl t n => 1 ≤ n.toNat && n.toNat ≤ t.width
  | .packsm t n | .packsl t n | .unpksm t n | .unpksl t n => 1 ≤ n.toNat && n.toNat ≤ t.width

end Sys2Proof
end

