-- ==== Sys2Proof/Decode.lean ====
section
/-! DEFINITION. The command word: its fields (spec 30 R70), the opcode and type code tables (R74, R77),
the decoder, total on every word and refusing by the name of the condition (R76 to R81), and the
encoder (R83). -/

namespace Sys2Proof

/-- `CW[7:0]` (30 R70). -/
def fieldOP (cw : CommandWord) : BitVec 8 := cw.extractLsb' 0 8
/-- `CW[11:8]` (30 R70). -/
def fieldT (cw : CommandWord) : BitVec 4 := cw.extractLsb' 8 4
/-- `CW[18:12]` (30 R70). -/
def fieldN (cw : CommandWord) : BitVec 7 := cw.extractLsb' 12 7
/-- `CW[31:19]` (30 R70). -/
def fieldZERO (cw : CommandWord) : BitVec 13 := cw.extractLsb' 19 13

/-- The type codes of 30 R74. -/
def NType.code : NType → BitVec 4
  | .u8 => 0x0 | .u16 => 0x1 | .u32 => 0x2 | .u64 => 0x3
  | .i8 => 0x4 | .i16 => 0x5 | .i32 => 0x6 | .i64 => 0x7
  | .f32 => 0xA | .f64 => 0xB

/-- The ten native types in the order of their codes (30 R74). -/
def NType.all : List NType := [.u8, .u16, .u32, .u64, .i8, .i16, .i32, .i64, .f32, .f64]

/-- The native type of a type code; `none` for the six reserved codes (30 R74). -/
def NType.ofCode (c : BitVec 4) : Option NType := NType.all.find? (·.code == c)

/-- The opcodes of 30 R77. -/
def Op.code : Op → BitVec 8
  | .nbytes => 0x00 | .bitw => 0x01 | .mask => 0x02 | .vmask => 0x03 | .fromp => 0x04
  | .ntom => 0x10 | .ntol => 0x11 | .mton => 0x12 | .lton => 0x13
  | .packm => 0x20 | .packl => 0x21 | .unpkm => 0x22 | .unpkl => 0x23
  | .packsm => 0x30 | .packsl => 0x31 | .unpksm => 0x32 | .unpksl => 0x33

/-- The 17 operations in the order of 30 R77. -/
def Op.all : List Op :=
  [.nbytes, .bitw, .mask, .vmask, .fromp, .ntom, .ntol, .mton, .lton,
   .packm, .packl, .unpkm, .unpkl, .packsm, .packsl, .unpksm, .unpksl]

/-- The operation of an opcode; `none` for an unassigned one (30 R71, R81 (a)). -/
def Op.ofCode (c : BitVec 8) : Option Op := Op.all.find? (·.code == c)

/-- The format column of 30 R77. -/
def Op.format : Op → Format
  | .nbytes | .bitw | .mask => .W
  | .ntom | .ntol | .mton | .lton => .T
  | .vmask | .fromp => .TN
  | .packm | .packl | .unpkm | .unpkl => .TN
  | .packsm | .packsl | .unpksm | .unpksl => .TN

/-- The `mask` column of 30 R77. -/
def Format.rowMask : Format → CommandWord
  | .W => 0xFFF80FFF
  | .T => 0xFFFFF0FF
  | .TN => 0xFFF800FF

/-- The `match` column of 30 R77. -/
def Op.rowMatch (op : Op) : CommandWord := op.code.setWidth 32

/-- The legal range of the `N` field per operation (30 R79). -/
def Op.legalWidth (op : Op) (t : NType) (n : Nat) : Bool :=
  match op with
  | .mask => true
  | .nbytes | .bitw => 1 ≤ n && n ≤ 64
  | .ntom | .ntol | .mton | .lton => n == 0
  | .vmask | .fromp | .packm | .packl | .unpkm | .unpkl
  | .packsm | .packsl | .unpksm | .unpksl => 1 ≤ n && n ≤ t.width

/-- The command of an operation with the given type and width fields; a field the format does not use
is dropped. -/
def Op.instr (op : Op) (t : NType) (n : BitVec 7) : Instr :=
  match op with
  | .nbytes => .nbytes n
  | .bitw => .bitw n
  | .mask => .mask n
  | .vmask => .vmask t n
  | .fromp => .fromp t n
  | .ntom => .ntom t
  | .ntol => .ntol t
  | .mton => .mton t
  | .lton => .lton t
  | .packm => .packm t n
  | .packl => .packl t n
  | .unpkm => .unpkm t n
  | .unpkl => .unpkl t n
  | .packsm => .packsm t n
  | .packsl => .packsl t n
  | .unpksm => .unpksm t n
  | .unpksl => .unpksl t n

/-- The last check of decoding: the `N` field against the range of 30 R79; condition (e) for format T,
(f) for the others (30 R81). -/
def decodeWidth (op : Op) (t : NType) (n : BitVec 7) : Except IllegalCond Instr :=
  if op.legalWidth t n.toNat then .ok (op.instr t n)
  else match op.format with
    | .T => .error .widthNotZero
    | .W | .TN => .error .widthRange

/-- The `T` field: zero in format W, else a legal type code (30 R78, R81 (c), (d)). Format W has no
type, and `u8` stands in for it. -/
def decodeType (f : Format) (c : BitVec 4) : Except IllegalCond NType :=
  match f with
  | .W => if c = 0 then .ok .u8 else .error .typeNotZero
  | .T | .TN =>
    match NType.ofCode c with
    | some t => .ok t
    | none => .error .reservedType

/-- The decoder: every 32-bit word to a command or to the condition of 30 R81 that refuses it
(30 R76). Where several hold, the first of (a) to (f) is named (notes/assumptions/7.md). -/
def decode (cw : CommandWord) : Except IllegalCond Instr :=
  match Op.ofCode (fieldOP cw) with
  | none => .error .opcode
  | some op =>
    if fieldZERO cw ≠ 0 then .error .reservedBits
    else match decodeType op.format (fieldT cw) with
      | .error why => .error why
      | .ok t => decodeWidth op t (fieldN cw)

/-- The operation of a command. -/
def Instr.op : Instr → Op
  | .nbytes _ => .nbytes
  | .bitw _ => .bitw
  | .mask _ => .mask
  | .vmask _ _ => .vmask
  | .fromp _ _ => .fromp
  | .ntom _ => .ntom
  | .ntol _ => .ntol
  | .mton _ => .mton
  | .lton _ => .lton
  | .packm _ _ => .packm
  | .packl _ _ => .packl
  | .unpkm _ _ => .unpkm
  | .unpkl _ _ => .unpkl
  | .packsm _ _ => .packsm
  | .packsl _ _ => .packsl
  | .unpksm _ _ => .unpksm
  | .unpksl _ _ => .unpksl

/-- `tcode` of 30 R83: the type code, 0 where the format has no type. -/
def Instr.tcode : Instr → BitVec 4
  | .nbytes _ | .bitw _ | .mask _ => 0
  | .ntom t | .ntol t | .mton t | .lton t => t.code
  | .vmask t _ | .fromp t _ | .packm t _ | .packl t _ | .unpkm t _ | .unpkl t _
  | .packsm t _ | .packsl t _ | .unpksm t _ | .unpksl t _ => t.code

/-- `n` of 30 R83: the width field, 0 where the format has none. -/
def Instr.nfield : Instr → BitVec 7
  | .nbytes n | .bitw n | .mask n => n
  | .ntom _ | .ntol _ | .mton _ | .lton _ => 0
  | .vmask _ n | .fromp _ n | .packm _ n | .packl _ n | .unpkm _ n | .unpkl _ n
  | .packsm _ n | .packsl _ n | .unpksm _ n | .unpksl _ n => n

/-- A command word from its fields, `CW = (n << 12) | (tcode << 8) | OP` (30 R83). -/
def assembleWord (op : BitVec 8) (tcode : BitVec 4) (n : BitVec 7) : CommandWord :=
  (n.setWidth 32 <<< 12) ||| (tcode.setWidth 32 <<< 8) ||| op.setWidth 32

/-- The encoder (30 R83). -/
def encode (i : Instr) : CommandWord := assembleWord i.op.code i.tcode i.nfield

/-- The command the decoder reads from a word of `nbits` bits, for the host's check of the opcode
table. A command is one 32-bit word on a port and has no byte order (20 R46, 30 R85). -/
def decodeTableWord (nbits w : Nat) : Option Instr :=
  match decode (BitVec.ofNat 32 (w % 2 ^ nbits)) with
  | .ok i => some i
  | .error _ => none

end Sys2Proof
end

