-- ==== Sys2Proof/Config.lean ====
section
/-! DEFINITION. What is fixed for one machine: the open parameter ABITS (spec 00 R10, 93 U7), and the
free value the spec leaves open: the initial contents of buffer memory (10 R31, 93 U4). -/

namespace Sys2Proof

/-- The open parameter of the spec. -/
structure Config where
  /-- ABITS, the width in bits of ADDR, LEN, EXPECTED and ACTUAL; BM has `2^ABITS` bytes (00 R10). -/
  abits : Nat
deriving DecidableEq, Repr

/-- The value the spec suggests for ABITS, 32 (00 R10). -/
def Config.suggested : Config := ⟨32⟩

/-- The constraint on ABITS: at least 4 (00 R10). -/
def Config.wf (c : Config) : Bool := 4 ≤ c.abits

/-- The number of addresses of buffer memory (20 R40). -/
abbrev Config.space (c : Config) : Nat := 2 ^ c.abits

/-- The byte an address of buffer memory holds before the host or a command has written it: any value
(10 R31, 93 U4). A free value: nothing in Lean constrains it (notes/assumptions/1.md). -/
opaque Config.initialByte : Nat → Byte

end Sys2Proof
end

