-- ==== Sys2Proof/Machine/State.lean ====
section
/-! DEFINITION. The state of the machine: buffer memory BM, the only mutable state of the spec
(10 R27, R33), the parameter ABITS, the request ports of the transaction at hand (10 R28), what the
host does next, and the responses given so far (70 R237). The unit itself holds nothing (10 R20 to R25). -/

namespace Sys2Proof.Machine

/-- Buffer memory: the bytes the host or a command has written, as (address, byte) pairs with strictly
rising addresses. An address with no pair was never written (10 R31). -/
abbrev Memory := List Host.Cell

/-- The five request ports (10 R28). ADDR and LEN are `ABITS`-bit numbers, never masked or shifted by
any rule, and are held as natural numbers (notes/assumptions/8.md). -/
structure Request where
  /-- CW, the command word -/
  cw : CommandWord
  /-- VAL, the value operand -/
  val : Word
  /-- BYTES[0..7], the byte-array operand -/
  bytes : Lanes
  /-- ADDR, the address of the first byte of a slice -/
  addr : Nat
  /-- LEN, the length of the slice in bytes -/
  len : Nat
deriving DecidableEq, Repr

/-- The payload of an `Ok` response (10 R28). -/
inductive Payload where
  /-- RVAL -/
  | value (rval : Word)
  /-- RBYTES[0..7] and RLEN, the number of its valid lanes -/
  | bytes (rbytes : Lanes) (rlen : BitVec 4)
  /-- nothing (PACKSM, PACKSL) -/
  | nothing
deriving DecidableEq, Repr

/-- The abstract response, a sum of three cases (10 R28): a port that is not valid in a response does
not exist in it (93 U3). -/
inductive Response where
  /-- STATUS 0 -/
  | ok (payload : Payload)
  /-- STATUS 1, with EXPECTED and ACTUAL -/
  | bufferSizeMismatch (expected actual : Nat)
  /-- STATUS 2 -/
  | illegal
deriving DecidableEq, Repr

/-- One thing the host does between two transactions or as one: the model's input
(notes/assumptions/4.md). -/
inductive HostAction where
  /-- issue a request (10 R28) -/
  | command (request : Request)
  /-- apply reset (70 R230) -/
  | reset
  /-- write one byte of its own buffer memory (10 R27, 70 R234 (b)) -/
  | store (addr : Nat) (byte : Byte)
deriving DecidableEq, Repr

/-- Why the machine stops. -/
inductive Fault where
  /-- Raised by the shared memory operations and by the host's own write for an address that does not
  exist, `addr ≥ 2^ABITS` (20 R40). No command raises it: 30 R80 keeps every slice inside BM. Safe. -/
  | noSuchAddress (addr : Nat)
deriving DecidableEq, Repr

/-- Why a request has no meaning. -/
inductive Refusal where
  /-- Raised by `exec` for an instruction with no meaning yet; no arm uses it. Safe. -/
  | notModelled (mnemonic : String)
  /-- Raised by the decoder's rejection and by a command's own check: the request is illegal by the
  named condition of 30 R81, STATUS is 2 and there is no other effect; "A model treats an `Illegal`
  request as **refused**" (60 R203, R208, 93 U2). Safe. -/
  | illegal (why : IllegalCond)
deriving DecidableEq, Repr

structure State where
  /-- the parameter ABITS; no step changes it (00 R10) -/
  cfg : Config
  /-- buffer memory (10 R27, 20 R40) -/
  bm : Memory
  /-- the request ports of the transaction at hand (10 R28) -/
  ports : Request
  /-- what the host does next, in order (10 R21, 60 R216, 70 R237) -/
  pending : List HostAction
  /-- the responses given so far, oldest first (70 R237) -/
  responses : List Response
deriving DecidableEq, Repr

/-- Request ports with every bit zero. -/
def Request.zero : Request := ⟨0, 0, #v[0, 0, 0, 0, 0, 0, 0, 0], 0, 0⟩

/-- After reset the unit is idle (10 R30). The unit has nothing to reset (10 R32): ABITS is the
suggested 32, no byte of BM is known, no host action is pending (notes/assumptions/1.md to 5.md). -/
def State.reset : State := ⟨Config.suggested, [], Request.zero, [], []⟩

end Sys2Proof.Machine
end

