-- ==== Sys2Proof/Machine/Flags.lean ====
section
/-! DEFINITION. ENDCONV has no flags (spec 10 R22): a command's outcome is in its response only. This
file gives the response as the ports show it: STATUS, and each payload port where it is valid
(10 R28); a port not valid in a response has no value (93 U3). -/

namespace Sys2Proof.Machine

/-- STATUS: 0 `Ok`, 1 `BufferSizeMismatch`, 2 `Illegal`; 3 is never produced (10 R28). -/
def Response.status : Response → BitVec 2
  | .ok _ => 0
  | .bufferSizeMismatch _ _ => 1
  | .illegal => 2

/-- RVAL where it is valid. -/
def Response.rval : Response → Option Word
  | .ok (.value v) => some v
  | .ok (.bytes _ _) | .ok .nothing | .bufferSizeMismatch _ _ | .illegal => none

/-- RBYTES where it is valid. -/
def Response.rbytes : Response → Option Lanes
  | .ok (.bytes b _) => some b
  | .ok (.value _) | .ok .nothing | .bufferSizeMismatch _ _ | .illegal => none

/-- RLEN where it is valid. -/
def Response.rlen : Response → Option (BitVec 4)
  | .ok (.bytes _ k) => some k
  | .ok (.value _) | .ok .nothing | .bufferSizeMismatch _ _ | .illegal => none

/-- EXPECTED where it is valid. -/
def Response.expected : Response → Option Nat
  | .bufferSizeMismatch e _ => some e
  | .ok _ | .illegal => none

/-- ACTUAL where it is valid. -/
def Response.actual : Response → Option Nat
  | .bufferSizeMismatch _ a => some a
  | .ok _ | .illegal => none

end Sys2Proof.Machine
end

