-- ==== Sys2Proof/Machine/Operands.lean ====
section
/-! DEFINITION. The reference functions of the spec (00 section 7) and the operand forms: what a
command reads from its ports (30 R75, 10 R34, R35). -/

namespace Sys2Proof.Machine

/-- `bytes_for(N) = (N + 7) div 8` (40 R100). -/
def bytesFor (N : Nat) : Nat := (N + 7) / 8

/-- `native_to_msb(W, v)`: byte `i` is `(v >> (W - 8*(i+1))) & 0xFF` (41 R120). -/
def nativeToMsb (W : Nat) (v : BitVec W) : List Byte :=
  (List.range (W / 8)).map fun i => (v >>> (W - 8 * (i + 1))).setWidth 8

/-- `native_to_lsb(W, v)`: byte `i` is `(v >> 8*i) & 0xFF` (41 R121). -/
def nativeToLsb (W : Nat) (v : BitVec W) : List Byte :=
  (List.range (W / 8)).map fun i => (v >>> (8 * i)).setWidth 8

/-- `native_from_msb(W, a)`: the OR of `zext_W(a[i]) << (W - 8*(i+1))` (41 R122). -/
def nativeFromMsb (W : Nat) (a : List Byte) : BitVec W :=
  (List.range (W / 8)).foldl
    (fun v i => v ||| ((a.getD i 0).setWidth W <<< (W - 8 * (i + 1)))) 0

/-- `native_from_lsb(W, a)`: the OR of `zext_W(a[i]) << 8*i` (41 R123). -/
def nativeFromLsb (W : Nat) (a : List Byte) : BitVec W :=
  (List.range (W / 8)).foldl (fun v i => v ||| ((a.getD i 0).setWidth W <<< (8 * i))) 0

/-- `mask64(N)`, total on every N (42 R140). -/
def mask64 (N : Nat) : Word :=
  if N = 0 then 0
  else if N < 64 then BitVec.ofNat 64 (2 ^ N - 1)
  else BitVec.allOnes 64

/-- `maskW(W, N) = mask64(N)[W-1:0]` (42 R141). -/
def maskW (W N : Nat) : BitVec W := (mask64 N).setWidth W

/-- `from_primitive(W, N, v) = v & maskW(W, N)` (42 R142). -/
def fromPrimitive (W N : Nat) (v : BitVec W) : BitVec W := v &&& maskW W N

/-- `sv_to_msb(W, N, s)`: the native MSB bytes without the leading `NB - B` (42 R149). -/
def svToMsb (W N : Nat) (s : BitVec W) : List Byte := (nativeToMsb W s).drop (W / 8 - bytesFor N)

/-- `sv_to_lsb(W, N, s)`: the first `B` native LSB bytes (42 R150). -/
def svToLsb (W N : Nat) (s : BitVec W) : List Byte := (nativeToLsb W s).take (bytesFor N)

/-- `sv_from_msb(W, N, a)`: zero bytes on the left, native MSB decode, re-mask (42 R151). -/
def svFromMsb (W N : Nat) (a : List Byte) : BitVec W :=
  fromPrimitive W N (nativeFromMsb W (List.replicate (W / 8 - bytesFor N) 0 ++ a))

/-- `sv_from_lsb(W, N, a)`: zero bytes on the right, native LSB decode, re-mask (42 R152). -/
def svFromLsb (W N : Nat) (a : List Byte) : BitVec W :=
  fromPrimitive W N (nativeFromLsb W (a ++ List.replicate (W / 8 - bytesFor N) 0))

/-- `1 <= N <= limit`, the check a command with a width makes (30 R79). -/
def widthIn (limit N : Nat) : Bool := 1 ≤ N && N ≤ limit

/-- The lanes of a byte-array result; lanes past the array are zero (10 R34). -/
def lanesOf (a : List Byte) : Lanes :=
  #v[a.getD 0 0, a.getD 1 0, a.getD 2 0, a.getD 3 0, a.getD 4 0, a.getD 5 0, a.getD 6 0, a.getD 7 0]

/-- The operand `VAL[W-1:0]`; the bits above are ignored (10 R35). -/
def valOperand (t : NType) (s : State) : BitVec t.width := s.ports.val.setWidth t.width

/-- The operand `BYTES[0..k-1]`; the lanes above are ignored (10 R34). -/
def byteOperand (k : Nat) (s : State) : List Byte := s.ports.bytes.toList.take k

/-- The first line of every pack command: `s <- from_primitive(W, N, VAL[W-1:0])` (42 R153). -/
def sizedOperand (t : NType) (n : BitVec 7) (s : State) : BitVec t.width :=
  fromPrimitive t.width n.toNat (valOperand t s)

end Sys2Proof.Machine
end

