-- ==== Sys2Proof/Machine/Ops.lean ====
section
/-! DEFINITION. The shared operations: buffer memory, ending a command with a response, raising an
error, and taking one host action. -/

namespace Sys2Proof.Machine

/-- What a step answers. -/
abbrev Result := Host.Outcome State Fault Refusal

/-! ### Buffer memory (20 R40 to R53) -/

/-- The byte written at an address, `none` where nothing has written it. -/
def Memory.find : Memory → Nat → Option Byte
  | [], _ => none
  | (x, y) :: m, a => if x = a then some y else Memory.find m a

/-- `BM[a]`: the byte last written, or the initial byte, a free value (20 R51, R53, 93 U4). -/
def Memory.byteAt (m : Memory) (a : Nat) : Byte := (Memory.find m a).getD (Config.initialByte a)

/-- `BM[a] <- b`, keeping the addresses strictly rising. -/
def Memory.write : Memory → Nat → Byte → Memory
  | [], a, b => [(a, b)]
  | (x, y) :: m, a, b =>
    if a < x then (a, b) :: (x, y) :: m
    else if a = x then (a, b) :: m
    else (x, y) :: Memory.write m a b

/-- `BM[a + j] <- bs[j]` for every index of `bs` (00 section 6, MemWrite). -/
def Memory.writeBytes : Memory → Nat → List Byte → Memory
  | m, _, [] => m
  | m, a, b :: bs => Memory.writeBytes (Memory.write m a b) (a + 1) bs

/-- The canonical form: addresses strictly rising. -/
def Memory.wf : Memory → Bool
  | [] => true
  | [_] => true
  | (x, _) :: (x', y') :: m => x < x' && Memory.wf ((x', y') :: m)

/-- `MemRead(addr, k)`: the bytes `BM[addr + j]` for `0 <= j < k` (00 section 6); an address outside
BM does not exist (20 R40). -/
def memRead (s : State) (addr k : Nat) : Except Fault (List Byte) :=
  if addr + k ≤ s.cfg.space then .ok ((List.range k).map fun j => Memory.byteAt s.bm (addr + j))
  else .error (.noSuchAddress (max addr s.cfg.space))

/-- `MemWrite(addr, k, a)` with `k` the length of `a`: all bytes in one step, or none (00 section 6,
20 R50). -/
def memWrite (s : State) (addr : Nat) (a : List Byte) : Except Fault State :=
  if addr + a.length ≤ s.cfg.space then .ok { s with bm := Memory.writeBytes s.bm addr a }
  else .error (.noSuchAddress (max addr s.cfg.space))

/-! ### Ending a command -/

/-- The response is produced (10 R28). -/
def State.respond (s : State) (r : Response) : State := { s with responses := s.responses ++ [r] }

/-- `respond Ok(RVAL = zext_64(r))` (10 R35). -/
def respondValue {W : Nat} (r : BitVec W) (s : State) : Result :=
  .next (s.respond (.ok (.value (r.setWidth 64))))

/-- `respond Ok(RBYTES = a, RLEN = len(a))`; the lanes above are zero (10 R34). -/
def respondBytes (a : List Byte) (s : State) : Result :=
  .next (s.respond (.ok (.bytes (lanesOf a) (BitVec.ofNat 4 a.length))))

/-- `respond Ok()`. -/
def respondDone (s : State) : Result := .next (s.respond (.ok .nothing))

/-- `raise BufferSizeMismatch(expected, actual)`: a response with STATUS 1 and no other effect; nothing
is saved, no handler is entered, the unit is ready (60 R200, R207, R208). -/
def raiseMismatch (expected actual : Nat) (s : State) : Result :=
  .next (s.respond (.bufferSizeMismatch expected actual))

/-- `raise Illegal`: STATUS 2 and no effect, which a model treats as refused (60 R203, R208;
notes/assumptions/6.md). -/
def raiseIllegal (why : IllegalCond) (_ : State) : Result := .refused (.illegal why)

/-! ### The checks, in the order of 60 R206 -/

/-- Illegal unless `1 <= N <= limit` (30 R79, R81 (f)). -/
def guardWidth (limit : Nat) (n : BitVec 7) (s : State) (k : Result) : Result :=
  if widthIn limit n.toNat then k else raiseIllegal .widthRange s

/-- Illegal when the slice wraps the address space, `ADDR + LEN > 2^ABITS` (30 R80, R81 (g)). -/
def guardSlice (s : State) (k : Result) : Result :=
  if s.ports.addr + s.ports.len ≤ s.cfg.space then k else raiseIllegal .sliceWrap s

/-- `pack_to_slice` in the byte order `toBytes`: the checks, an exact fit, the write (43 R174, R175,
R178). -/
def packSlice (toBytes : (W N : Nat) → BitVec W → List Byte) (t : NType) (n : BitVec 7) (s : State) :
    Result :=
  guardWidth t.width n s <| guardSlice s <|
    if s.ports.len ≠ bytesFor n.toNat then raiseMismatch (bytesFor n.toNat) s.ports.len s
    else match memWrite s s.ports.addr (toBytes t.width n.toNat (sizedOperand t n s)) with
      | .ok s' => respondDone s'
      | .error f => .fault f

/-- `unpack_from_slice` in the byte order `fromBytes`: the checks, enough bytes, the first `B` bytes
read (43 R176, R177, R178). -/
def unpackSlice (fromBytes : (W N : Nat) → List Byte → BitVec W) (t : NType) (n : BitVec 7)
    (s : State) : Result :=
  guardWidth t.width n s <| guardSlice s <|
    if s.ports.len < bytesFor n.toNat then raiseMismatch (bytesFor n.toNat) s.ports.len s
    else match memRead s s.ports.addr (bytesFor n.toNat) with
      | .ok a => respondValue (fromBytes t.width n.toNat a) s
      | .error f => .fault f

/-! ### Host actions other than a command -/

/-- Reset between transactions: nothing architectural changes and BM is not touched (10 R30, R31,
70 R230). -/
def hostReset (s : State) : Result := .next s

/-- The host writes one byte of its own buffer memory (10 R27, 70 R234 (b); notes/assumptions/9.md). -/
def hostStore (a : Nat) (b : Byte) (s : State) : Result :=
  match memWrite s a [b] with
  | .ok s' => .next s'
  | .error f => .fault f

end Sys2Proof.Machine
end

