-- ==== Sys2Proof/Machine/MaskedValue.lean ====
section
/-! DEFINITION. The mask and masked sized value commands MASK, VMASK, FROMP, PACKM, PACKL, UNPKM and
UNPKL (spec 42). -/

namespace Sys2Proof.Machine

/-- MASK: every encodable N is legal (42 R143). -/
def execMask (n : BitVec 7) (s : State) : Result := respondValue (mask64 n.toNat) s

/-- VMASK (42 R144). -/
def execVmask (t : NType) (n : BitVec 7) (s : State) : Result :=
  guardWidth t.width n s (respondValue (maskW t.width n.toNat) s)

/-- FROMP (42 R146). -/
def execFromp (t : NType) (n : BitVec 7) (s : State) : Result :=
  guardWidth t.width n s (respondValue (fromPrimitive t.width n.toNat (valOperand t s)) s)

/-- PACKM (42 R153). -/
def execPackm (t : NType) (n : BitVec 7) (s : State) : Result :=
  guardWidth t.width n s (respondBytes (svToMsb t.width n.toNat (sizedOperand t n s)) s)

/-- PACKL (42 R154). -/
def execPackl (t : NType) (n : BitVec 7) (s : State) : Result :=
  guardWidth t.width n s (respondBytes (svToLsb t.width n.toNat (sizedOperand t n s)) s)

/-- UNPKM (42 R155). -/
def execUnpkm (t : NType) (n : BitVec 7) (s : State) : Result :=
  guardWidth t.width n s
    (respondValue (svFromMsb t.width n.toNat (byteOperand (bytesFor n.toNat) s)) s)

/-- UNPKL (42 R156). -/
def execUnpkl (t : NType) (n : BitVec 7) (s : State) : Result :=
  guardWidth t.width n s
    (respondValue (svFromLsb t.width n.toNat (byteOperand (bytesFor n.toNat) s)) s)

end Sys2Proof.Machine
end

