-- ==== Sys2Proof/Machine/NativeConversion.lean ====
section
/-! DEFINITION. The native byte/endian conversion commands NTOM, NTOL, MTON and LTON (spec 41). -/

namespace Sys2Proof.Machine

/-- NTOM (41 R124). -/
def execNtom (t : NType) (s : State) : Result := respondBytes (nativeToMsb t.width (valOperand t s)) s

/-- NTOL (41 R125). -/
def execNtol (t : NType) (s : State) : Result := respondBytes (nativeToLsb t.width (valOperand t s)) s

/-- MTON (41 R126). -/
def execMton (t : NType) (s : State) : Result :=
  respondValue (nativeFromMsb t.width (byteOperand (t.width / 8) s)) s

/-- LTON (41 R127). -/
def execLton (t : NType) (s : State) : Result :=
  respondValue (nativeFromLsb t.width (byteOperand (t.width / 8) s)) s

end Sys2Proof.Machine
end

