-- ==== Sys2Proof/Machine/PackAdaptors.lean ====
section
/-! DEFINITION. The slice commands PACKSM, PACKSL, UNPKSM and UNPKSL, the only ones that reach buffer
memory (spec 43, 20 R41). -/

namespace Sys2Proof.Machine

/-- PACKSM (43 R174). -/
def execPacksm (t : NType) (n : BitVec 7) (s : State) : Result := packSlice svToMsb t n s

/-- PACKSL (43 R175). -/
def execPacksl (t : NType) (n : BitVec 7) (s : State) : Result := packSlice svToLsb t n s

/-- UNPKSM (43 R176). -/
def execUnpksm (t : NType) (n : BitVec 7) (s : State) : Result := unpackSlice svFromMsb t n s

/-- UNPKSL (43 R177). -/
def execUnpksl (t : NType) (n : BitVec 7) (s : State) : Result := unpackSlice svFromLsb t n s

end Sys2Proof.Machine
end

