-- ==== Sys2Proof/Machine/WidthMetadata.lean ====
section
/-! DEFINITION. The width metadata commands NBYTES and BITW (spec 40). -/

namespace Sys2Proof.Machine

/-- NBYTES (40 R101). -/
def execNbytes (n : BitVec 7) (s : State) : Result :=
  guardWidth 64 n s (respondValue (BitVec.ofNat 64 (bytesFor n.toNat)) s)

/-- BITW (40 R102). -/
def execBitw (n : BitVec 7) (s : State) : Result := guardWidth 64 n s (respondValue n s)

end Sys2Proof.Machine
end

