-- ==== Sys2Proof/Machine/Dispatch.lean ====
section
/-! DEFINITION. The dispatch: each command to its meaning. -/

namespace Sys2Proof.Machine

def exec (i : Instr) (s : State) : Host.Outcome State Fault Refusal :=
  match i with
  | .nbytes n => Sys2Proof.Machine.execNbytes n s
  | .bitw n => Sys2Proof.Machine.execBitw n s
  | .mask n => Sys2Proof.Machine.execMask n s
  | .vmask t n => Sys2Proof.Machine.execVmask t n s
  | .fromp t n => Sys2Proof.Machine.execFromp t n s
  | .ntom t => Sys2Proof.Machine.execNtom t s
  | .ntol t => Sys2Proof.Machine.execNtol t s
  | .mton t => Sys2Proof.Machine.execMton t s
  | .lton t => Sys2Proof.Machine.execLton t s
  | .packm t n => Sys2Proof.Machine.execPackm t n s
  | .packl t n => Sys2Proof.Machine.execPackl t n s
  | .unpkm t n => Sys2Proof.Machine.execUnpkm t n s
  | .unpkl t n => Sys2Proof.Machine.execUnpkl t n s
  | .packsm t n => Sys2Proof.Machine.execPacksm t n s
  | .packsl t n => Sys2Proof.Machine.execPacksl t n s
  | .unpksm t n => Sys2Proof.Machine.execUnpksm t n s
  | .unpksl t n => Sys2Proof.Machine.execUnpksl t n s

end Sys2Proof.Machine
end

