-- ==== Sys2Proof/Machine/Transaction.lean ====
section
/-! DEFINITION. One transaction: the request at the ports is decoded and executed (spec 10 R21, R28,
60 R206), and the same as a function of buffer memory and request alone (10 R33). -/

namespace Sys2Proof.Machine

/-- The next host action is taken off the list; a request is driven on the request ports. -/
def State.present (s : State) (r : Request) (rest : List HostAction) : State :=
  { s with ports := r, pending := rest }

/-- The request at the ports: decoded (conditions (a) to (f) of 30 R81), then executed. -/
def transaction (s : State) : Result :=
  match decode s.ports.cw with
  | .ok i => exec i s
  | .error why => raiseIllegal why s

/-- The unit as 10 R33 shapes it, `BM -> Request -> (BM, Response)`: the hardware's whole answer,
with the response `Illegal` (STATUS 2, BM unchanged) where the machine's step refuses (60 R203). The
fault arm is never taken: no command faults. -/
def transact (cfg : Config) (bm : Memory) (r : Request) : Memory × Response :=
  match transaction ⟨cfg, bm, r, [], []⟩ with
  | .next t => (t.bm, t.responses.getLastD .illegal)
  | .refused _ => (bm, .illegal)
  | .fault _ => (bm, .illegal)

end Sys2Proof.Machine
end

