-- ==== Sys2Proof/Machine/Step.lean ====
section
/-! DEFINITION. One step: the unit takes the host's next action, or idles when there is none. -/

namespace Sys2Proof.Machine

/-- A command is one atomic step (20 R50), a reset or a write by the host is one step, and an idle
unit stays as it is (60 R212). -/
def step (s : State) : Host.Outcome State Fault Refusal :=
  match s.pending with
  | [] => .next s
  | .command r :: rest => transaction (s.present r rest)
  | .reset :: rest => hostReset { s with pending := rest }
  | .store a b :: rest => hostStore a b { s with pending := rest }

/-- The word `w` issued as the command word of the next request: it replaces the command word of the
request that stands first, or stands first as a request of its own with the other ports as they are
(notes/assumptions/4.md). -/
def State.withFetchWord (s : State) (nbits w : Nat) : State :=
  let cw : CommandWord := BitVec.ofNat 32 (w % 2 ^ nbits)
  match s.pending with
  | .command r :: rest => { s with pending := .command { r with cw := cw } :: rest }
  | rest => { s with pending := .command { s.ports with cw := cw } :: rest }

end Sys2Proof.Machine
end

