-- ==== Sys2Proof/Machine/Assembler.lean ====
section
/-! DEFINITION. The text form of a command and of a response (spec 30 R82), the assembly of a line to a
request (R83) and the pseudo-commands (R84). Text is a list of characters. -/

namespace Sys2Proof

/-- The mnemonic of an operation (30 R77). -/
def Op.mnemonic : Op → List Char
  | .nbytes => ['N', 'B', 'Y', 'T', 'E', 'S']
  | .bitw => ['B', 'I', 'T', 'W']
  | .mask => ['M', 'A', 'S', 'K']
  | .vmask => ['V', 'M', 'A', 'S', 'K']
  | .fromp => ['F', 'R', 'O', 'M', 'P']
  | .ntom => ['N', 'T', 'O', 'M']
  | .ntol => ['N', 'T', 'O', 'L']
  | .mton => ['M', 'T', 'O', 'N']
  | .lton => ['L', 'T', 'O', 'N']
  | .packm => ['P', 'A', 'C', 'K', 'M']
  | .packl => ['P', 'A', 'C', 'K', 'L']
  | .unpkm => ['U', 'N', 'P', 'K', 'M']
  | .unpkl => ['U', 'N', 'P', 'K', 'L']
  | .packsm => ['P', 'A', 'C', 'K', 'S', 'M']
  | .packsl => ['P', 'A', 'C', 'K', 'S', 'L']
  | .unpksm => ['U', 'N', 'P', 'K', 'S', 'M']
  | .unpksl => ['U', 'N', 'P', 'K', 'S', 'L']

/-- The type suffix of a native type (30 R82). -/
def NType.suffix : NType → List Char
  | .u8 => ['u', '8'] | .u16 => ['u', '1', '6'] | .u32 => ['u', '3', '2'] | .u64 => ['u', '6', '4']
  | .i8 => ['i', '8'] | .i16 => ['i', '1', '6'] | .i32 => ['i', '3', '2'] | .i64 => ['i', '6', '4']
  | .f32 => ['f', '3', '2'] | .f64 => ['f', '6', '4']

end Sys2Proof

namespace Sys2Proof.Machine

/-- The operands of a line, by kind of command (30 R82). -/
inductive AsmOperands where
  /-- NBYTES, BITW, MASK, VMASK -/
  | none
  /-- FROMP, PACKM, PACKL, NTOM, NTOL: `val` -/
  | value (val : Nat)
  /-- MTON, LTON, UNPKM, UNPKL: the byte list in lane order -/
  | byteList (bytes : List Nat)
  /-- PACKSM, PACKSL: `val, addr, len` -/
  | packSlice (val addr len : Nat)
  /-- UNPKSM, UNPKSL: `addr, len` -/
  | unpackSlice (addr len : Nat)
deriving DecidableEq, Repr

/-- One line, `MNEMONIC[.type] [n] [, operand]...` (30 R82). -/
structure AsmLine where
  op : Op
  type : Option NType
  n : Option Nat
  operands : AsmOperands
deriving DecidableEq, Repr

/-- A line of source: a command, or the pseudo-command SWAP, which is two (30 R84). -/
inductive AsmSource where
  | line (l : AsmLine)
  | swap (t : NType) (val : Nat)
deriving DecidableEq, Repr

/-! ### Assembly (30 R82, R83) -/

/-- A type stands on the line exactly in formats T and TN, a width exactly in formats W and TN. The
type and width are answered as fields, 0 where the format has none. -/
def AsmLine.fields (l : AsmLine) : Option (BitVec 4 × BitVec 7) :=
  match l.op.format, l.type, l.n with
  | .W, none, some n => if n < 128 then some (0, BitVec.ofNat 7 n) else none
  | .T, some t, none => some (t.code, 0)
  | .TN, some t, some n => if n < 128 then some (t.code, BitVec.ofNat 7 n) else none
  | _, _, _ => none

/-- The number of entries the line's byte list has: `NB` in format T, else `B`. -/
def AsmLine.listLength (l : AsmLine) : Nat :=
  match l.op.format with
  | .T => (l.type.getD .u8).width / 8
  | .W | .TN => bytesFor (l.n.getD 0)

/-- The four request ports a line's operands drive; a port no operand names is zero. `none` where the
operands are not those of the command, or a number does not fit its port (30 R82). -/
def AsmLine.drive (cfg : Config) (l : AsmLine) (cw : CommandWord) : Option Request :=
  match l.op, l.operands with
  | .nbytes, .none | .bitw, .none | .mask, .none | .vmask, .none =>
    some { Request.zero with cw := cw }
  | .fromp, .value v | .packm, .value v | .packl, .value v | .ntom, .value v | .ntol, .value v =>
    if v < 2 ^ 64 then some { Request.zero with cw := cw, val := BitVec.ofNat 64 v } else none
  | .mton, .byteList bs | .lton, .byteList bs | .unpkm, .byteList bs | .unpkl, .byteList bs =>
    if bs.length = l.listLength ∧ bs.all (· < 256) then
      some { Request.zero with cw := cw, bytes := lanesOf (bs.map (BitVec.ofNat 8)) }
    else none
  | .packsm, .packSlice v a k | .packsl, .packSlice v a k =>
    if v < 2 ^ 64 ∧ a < cfg.space ∧ k < cfg.space then
      some { Request.zero with cw := cw, val := BitVec.ofNat 64 v, addr := a, len := k }
    else none
  | .unpksm, .unpackSlice a k | .unpksl, .unpackSlice a k =>
    if a < cfg.space ∧ k < cfg.space then some { Request.zero with cw := cw, addr := a, len := k }
    else none
  | _, _ => none

/-- The request a line assembles to, `CW = (n << 12) | (tcode << 8) | OP` (30 R83). -/
def assemble (cfg : Config) (l : AsmLine) : Option Request :=
  match l.fields with
  | some (tcode, n) => l.drive cfg (assembleWord l.op.code tcode n)
  | none => none

/-! ### SWAP (30 R84): NTOM, then LTON on the bytes NTOM returned -/

/-- The first command of `SWAP.t val`. -/
def swapFirst (t : NType) (val : Nat) : AsmLine := ⟨.ntom, some t, none, .value val⟩

/-- The second command of `SWAP.t val`: the host moves RBYTES to BYTES. -/
def swapSecond (t : NType) (rbytes : Lanes) : AsmLine :=
  ⟨.lton, some t, none, .byteList ((rbytes.toList.take (t.width / 8)).map BitVec.toNat)⟩

/-! ### Reading text (30 R82) -/

/-- The operation of a spelling: one of the 17 mnemonics, or one of the four pseudo-commands that are
another spelling of one (30 R84). The spelling is cut at its dots. -/
def readOp : List (List Char) → Option (Op × List (List Char))
  | ['P', 'A', 'C', 'K'] :: ['M'] :: rest => some (.packm, rest)
  | ['P', 'A', 'C', 'K'] :: ['L'] :: rest => some (.packl, rest)
  | ['U', 'N', 'P', 'A', 'C', 'K'] :: ['M'] :: rest => some (.unpkm, rest)
  | ['U', 'N', 'P', 'A', 'C', 'K'] :: ['L'] :: rest => some (.unpkl, rest)
  | m :: rest => (Op.all.find? (·.mnemonic == m)).map fun op => (op, rest)
  | [] => none

/-- The type of a spelling's last part, if it has one. -/
def readType : List (List Char) → Option (Option NType)
  | [] => some none
  | [p] => (NType.all.find? (·.suffix == p)).map some
  | _ => none

/-- The value of a digit. -/
def digitOf (c : Char) : Nat :=
  if '0' ≤ c ∧ c ≤ '9' then c.toNat - '0'.toNat
  else if 'A' ≤ c ∧ c ≤ 'F' then c.toNat - 'A'.toNat + 10
  else if 'a' ≤ c ∧ c ≤ 'f' then c.toNat - 'a'.toNat + 10
  else 16

/-- Digits in a base; `_` may separate digits. -/
def readDigits (base : Nat) (cs : List Char) : Option Nat :=
  let ds := (cs.filter (· ≠ '_')).map digitOf
  if ds ≠ [] ∧ ds.all (· < base) ∧ cs.head? ≠ some '_' ∧ cs.getLast? ≠ some '_' then some (ds.foldl (fun v d => v * base + d) 0) else none

/-- A number: decimal, `0x` hexadecimal or `0b` binary. -/
def readNumber : List Char → Option Nat
  | '0' :: 'x' :: cs => readDigits 16 cs
  | '0' :: 'b' :: cs => readDigits 2 cs
  | cs => readDigits 10 cs

/-- The tokens of a line, where `acc` holds the token begun, last character first: words between
blanks, with `,`, `[` and `]` tokens of their own, and everything after `;` dropped. -/
def tokens : List Char → List Char → List (List Char)
  | [], acc => if acc = [] then [] else [acc.reverse]
  | c :: cs, acc =>
    let flushed := if acc = [] then [] else [acc.reverse]
    if c = ';' then flushed
    else if c = ' ' ∨ c = '\t' then flushed ++ tokens cs []
    else if c = ',' ∨ c = '[' ∨ c = ']' then flushed ++ [c] :: tokens cs []
    else tokens cs (c :: acc)

/-- A word cut at its dots. -/
def cutAtDots : List Char → List Char → List (List Char)
  | [], acc => [acc.reverse]
  | c :: cs, acc => if c = '.' then acc.reverse :: cutAtDots cs [] else cutAtDots cs (c :: acc)

/-- The entries of a byte list up to its closing bracket, which ends the line. Entries are
hexadecimal without `0x` (95 Notation; notes/assumptions/10.md). -/
def readByteList : List (List Char) → Option (List Nat)
  | [[']']] => some []
  | tok :: rest =>
    match readDigits 16 tok, readByteList rest with
    | some b, some bs => some (b :: bs)
    | _, _ => none
  | [] => none

/-- Numbers separated by commas, to the end of the line. -/
def readNumbers : List (List Char) → Option (List Nat)
  | [tok] => (readNumber tok).map fun v => [v]
  | tok :: [','] :: rest =>
    match readNumber tok, readNumbers rest with
    | some v, some vs => some (v :: vs)
    | _, _ => none
  | _ => none

/-- The operands after the width, by the full forms of 30 R82. -/
def operandsOf (op : Op) (vs : List Nat) : Option AsmOperands :=
  match op, vs with
  | .nbytes, [] | .bitw, [] | .mask, [] | .vmask, [] => some .none
  | .fromp, [v] | .packm, [v] | .packl, [v] | .ntom, [v] | .ntol, [v] => some (.value v)
  | .packsm, [v, a, k] | .packsl, [v, a, k] => some (.packSlice v a k)
  | .unpksm, [a, k] | .unpksl, [a, k] => some (.unpackSlice a k)
  | _, _ => none

/-- The operands after the width: a byte list, or numbers. -/
def readAfterWidth (op : Op) : List (List Char) → Option AsmOperands
  | [] => operandsOf op []
  | [','] :: ['['] :: rest => (readByteList rest).map .byteList
  | [','] :: rest => (readNumbers rest).bind (operandsOf op)
  | _ => none

/-- The tokens after the mnemonic: the width, in decimal, where the format has one, then the operands. -/
def readOperands (op : Op) (toks : List (List Char)) : Option (Option Nat × AsmOperands) :=
  match op.format, toks with
  | .T, ['['] :: rest => (readByteList rest).map fun bs => (none, .byteList bs)
  | .T, _ => ((readNumbers toks).bind (operandsOf op)).map fun o => (none, o)
  | .W, tok :: rest | .TN, tok :: rest =>
    match readDigits 10 tok, readAfterWidth op rest with
    | some n, some o => some (some n, o)
    | _, _ => none
  | .W, [] | .TN, [] => none

/-- A line of source read (30 R82, R84); `none` for a line that is not of that form. -/
def readLine (cs : List Char) : Option AsmSource :=
  match tokens cs [] with
  | [] => none
  | m :: rest =>
    match cutAtDots m [] with
    | ['S', 'W', 'A', 'P'] :: ty =>
      match readType ty, rest with
      | some (some t), [v] => (readNumber v).map fun v => .swap t v
      | _, _ => none
    | parts =>
      match readOp parts with
      | none => none
      | some (op, ty) =>
        match readType ty, readOperands op rest with
        | some t, some (n, o) => some (.line ⟨op, t, n, o⟩)
        | _, _ => none

/-! ### Writing a response (30 R82) -/

/-- A digit as a character. -/
def digitChar (d : Nat) : Char := if d < 10 then Char.ofNat (48 + d) else Char.ofNat (55 + d)

/-- A number's digits in a base, most significant first, without leading zeros. -/
def writeDigits (base v : Nat) : List Char := (Nat.toDigits base v).map fun c => digitChar (digitOf c)

/-- A byte as two hexadecimal digits. -/
def writeByte (b : Byte) : List Char := [digitChar (b.toNat / 16), digitChar (b.toNat % 16)]

/-- The response as it stands after `->`. -/
def Response.text : Response → List Char
  | .ok (.value v) => ['O', 'k', ' ', 'v', 'a', 'l', '=', '0', 'x'] ++ writeDigits 16 v.toNat
  | .ok (.bytes b k) =>
    ['O', 'k', ' ', 'b', 'y', 't', 'e', 's', '=', '['] ++
      [' '].intercalate ((b.toList.take k.toNat).map writeByte) ++ [']']
  | .ok .nothing => ['O', 'k']
  | .bufferSizeMismatch e a =>
    ['B', 'u', 'f', 'f', 'e', 'r', 'S', 'i', 'z', 'e', 'M', 'i', 's', 'm', 'a', 't', 'c', 'h', ' '] ++
      ['e', 'x', 'p', 'e', 'c', 't', 'e', 'd', '='] ++ writeDigits 10 e ++
      [' ', 'a', 'c', 't', 'u', 'a', 'l', '='] ++ writeDigits 10 a
  | .illegal => ['I', 'l', 'l', 'e', 'g', 'a', 'l']

end Sys2Proof.Machine
end

