-- ==== Sys2Proof/Safety.lean ====
section
/-! DEFINITION. What claims about the machine are stated in: the invariant every step keeps, the
illegal requests of spec 30 R81 in terms of the bits of the request, the size check of 43 R178, and
the host's duty before an unpack (70 R234 (b)). -/

namespace Sys2Proof.Machine

/-! ### The invariant -/

/-- ADDR and LEN fit their `ABITS`-bit ports (10 R28). -/
def Request.wf (cfg : Config) (r : Request) : Bool := r.addr < cfg.space && r.len < cfg.space

/-- A pending request fits its ports; the other actions are free. -/
def HostAction.wf (cfg : Config) : HostAction → Bool
  | .command r => r.wf cfg
  | .reset => true
  | .store _ _ => true

/-- A response the unit can have given to a legal command: RLEN is 1 to 8 and the lanes from RLEN on
are zero (10 R28, R34), EXPECTED is 1 to 8, ACTUAL fits its port and differs from it (60 R202). An
`Illegal` request is refused, so its response is never in the record (60 R203). -/
def Response.wf (cfg : Config) : Response → Bool
  | .ok (.value _) => true
  | .ok (.bytes b k) =>
    1 ≤ k.toNat && k.toNat ≤ 8 && (List.range 8).all fun j => j < k.toNat || b.toList.getD j 0 == 0
  | .ok .nothing => true
  | .bufferSizeMismatch e a => 1 ≤ e && e ≤ 8 && a != e && decide (a < cfg.space)
  | .illegal => false

/-- The invariant: ABITS is at least 4, BM is in its canonical form with every address below
`2^ABITS`, the ports and the pending requests fit, and every response given is a possible one. -/
def State.inv (s : State) : Bool :=
  s.cfg.wf && Memory.wf s.bm && s.bm.all (fun c => c.1 < s.cfg.space) && s.ports.wf s.cfg &&
    s.pending.all (fun a => a.wf s.cfg) && s.responses.all (fun r => r.wf s.cfg)

/-! ### The illegal requests of 30 R81, bit by bit -/

/-- The opcodes of the three formats (30 R77). -/
def opcodesW : List (BitVec 8) := [0x00, 0x01, 0x02]
def opcodesT : List (BitVec 8) := [0x10, 0x11, 0x12, 0x13]
def opcodesTN : List (BitVec 8) :=
  [0x03, 0x04, 0x20, 0x21, 0x22, 0x23, 0x30, 0x31, 0x32, 0x33]
/-- The slice commands. -/
def opcodesSlice : List (BitVec 8) := [0x30, 0x31, 0x32, 0x33]

/-- `W = 8 << T[1:0]` (30 R74). -/
def typedWidth (cw : CommandWord) : Nat := 8 <<< ((fieldT cw).extractLsb' 0 2).toNat

/-- The six reserved type codes (30 R74). -/
def typeReserved (cw : CommandWord) : Prop := fieldT cw ∈ [0x8#4, 0x9#4, 0xC#4, 0xD#4, 0xE#4, 0xF#4]

/-- The width field is outside the command's range (30 R79, the rows with a range). -/
def widthOutside (cw : CommandWord) : Prop :=
  (fieldOP cw ∈ [0x00#8, 0x01#8] ∧ ¬(1 ≤ (fieldN cw).toNat ∧ (fieldN cw).toNat ≤ 64)) ∨
  (fieldOP cw ∈ opcodesTN ∧ ¬(1 ≤ (fieldN cw).toNat ∧ (fieldN cw).toNat ≤ typedWidth cw))

/-- Conditions (a) to (f) of 30 R81, which look at CW only. -/
def IllegalWord (cw : CommandWord) : Prop :=
  fieldOP cw ∉ opcodesW ++ opcodesT ++ opcodesTN ∨
  fieldZERO cw ≠ 0 ∨
  (fieldOP cw ∈ opcodesW ∧ fieldT cw ≠ 0) ∨
  (fieldOP cw ∈ opcodesT ++ opcodesTN ∧ typeReserved cw) ∨
  (fieldOP cw ∈ opcodesT ∧ fieldN cw ≠ 0) ∨
  widthOutside cw

/-- A request is illegal by 30 R81: (a) to (f), or (g) a slice that wraps the address space. -/
def IllegalRequest (cfg : Config) (r : Request) : Prop :=
  IllegalWord r.cw ∨ (fieldOP r.cw ∈ opcodesSlice ∧ r.addr + r.len > cfg.space)

/-- The minimal byte count `B = ceil(N/8)` of a request (40 R100). -/
def requestBytes (r : Request) : Nat := ((fieldN r.cw).toNat + 7) / 8

/-- The slice is the wrong size: not exactly `B` for a pack, too short for an unpack (43 R178, 60 R201). -/
def SizeMismatch (r : Request) : Prop :=
  (fieldOP r.cw ∈ [0x30#8, 0x31#8] ∧ r.len ≠ requestBytes r) ∨
  (fieldOP r.cw ∈ [0x32#8, 0x33#8] ∧ r.len < requestBytes r)

/-! ### The host's duty before an unpack -/

/-- The `k` bytes at `addr` have been written by the host or by a command (70 R234 (b)). A claim about
an unpack of such bytes rests on no free value. -/
def bytesWritten (m : Memory) (addr k : Nat) : Bool :=
  (List.range k).all fun j => (Memory.find m (addr + j)).isSome

end Sys2Proof.Machine
end

