-- ==== Sys2Proof/Certificates/Slice0/Obligations.lean ====
section
/-! DEFINITION. The statements for the provers. Where a rule gives a result by a bit slice, the statement
names the slice, not the model's function. A request reaches the machine as the first entry of the
model's own list `pending` and its response as the last entry of `responses` (notes/assumptions/4.md,
5.md); an illegal request is refused (6.md). -/

namespace Sys2Proof.Claims
open Sys2Proof.Machine

/-- The minimal byte count `B = (N + 7) div 8` of a width field (40 R100). -/
def B (n : BitVec 7) : Nat := (n.toNat + 7) / 8

/-- The low `N` bits of a value port, the rest zero. -/
def low (N : Nat) (v : Word) : Word := v &&& BitVec.ofNat 64 (2 ^ N - 1)

/-- Lane `j` of a byte-lane port; zero past the eighth. -/
def lane (L : Lanes) (j : Nat) : Byte := L.toList.getD j 0

/-- Bit `i` of the value whose `k` MSB bytes are `a 0, a 1, ...` -/
def msbBit (a : Nat → Byte) (k i : Nat) : Bool := (a (k - 1 - i / 8)).getLsbD (i % 8)

/-- Bit `i` of the value whose LSB bytes are `a 0, a 1, ...` -/
def lsbBit (a : Nat → Byte) (i : Nat) : Bool := (a (i / 8)).getLsbD (i % 8)

/-- A byte-array result: RLEN is `k`, the lanes below are `f`, the lanes above are zero (10 R28, R34). -/
def bytesAre (L : Lanes) (rlen : BitVec 4) (k : Nat) (f : Nat → Byte) : Prop :=
  rlen.toNat = k ∧ ∀ j, j < 8 → lane L j = if j < k then f j else 0

/-- `(n << 12) | (tcode << 8) | OP` as a number (30 R83). -/
def wordOf (op tcode n : Nat) : CommandWord := BitVec.ofNat 32 (n * 2 ^ 12 + tcode * 2 ^ 8 + op)

/-- A format W command: the words of its range decode to it, every other word of its opcode is
illegal, and it has no meaning outside its range. -/
def encodesW (op : Nat) (mk : BitVec 7 → Instr) (lo hi : Nat) : Prop :=
  (∀ n : BitVec 7, lo ≤ n.toNat → n.toNat ≤ hi → decode (wordOf op 0 n.toNat) = .ok (mk n)) ∧
  (∀ cw, (fieldOP cw).toNat = op →
    (fieldZERO cw ≠ 0 ∨ fieldT cw ≠ 0 ∨ ¬(lo ≤ (fieldN cw).toNat ∧ (fieldN cw).toNat ≤ hi)) →
    ∃ why, decode cw = .error why) ∧
  (∀ (n : BitVec 7) s, ¬(lo ≤ n.toNat ∧ n.toNat ≤ hi) →
    ∃ why, exec (mk n) s = .refused (.illegal why))

/-- A format T command: the word of each type decodes to it, every other word of its opcode is illegal. -/
def encodesT (op : Nat) (mk : NType → Instr) : Prop :=
  (∀ t : NType, decode (wordOf op t.code.toNat 0) = .ok (mk t)) ∧
  (∀ cw, (fieldOP cw).toNat = op → (fieldZERO cw ≠ 0 ∨ typeReserved cw ∨ fieldN cw ≠ 0) →
    ∃ why, decode cw = .error why)

/-- A format TN command: the words of each type with `1 <= N <= W` decode to it, every other word of
its opcode is illegal, and it has no meaning outside that range. -/
def encodesTN (op : Nat) (mk : NType → BitVec 7 → Instr) : Prop :=
  (∀ (t : NType) (n : BitVec 7), 1 ≤ n.toNat → n.toNat ≤ t.width →
    decode (wordOf op t.code.toNat n.toNat) = .ok (mk t n)) ∧
  (∀ cw, (fieldOP cw).toNat = op →
    (fieldZERO cw ≠ 0 ∨ typeReserved cw ∨
      ¬(1 ≤ (fieldN cw).toNat ∧ (fieldN cw).toNat ≤ typedWidth cw)) →
    ∃ why, decode cw = .error why) ∧
  (∀ (t : NType) (n : BitVec 7) s, ¬(1 ≤ n.toNat ∧ n.toNat ≤ t.width) →
    ∃ why, exec (mk t n) s = .refused (.illegal why))

/-- The command answers `Ok` with this payload and changes nothing else. -/
def answersOk (i : Instr) (s : State) (p : Payload) : Prop :=
  exec i s = .next (s.respond (.ok p))

/-- The command answers `BufferSizeMismatch` and changes nothing else. -/
def answersMismatch (i : Instr) (s : State) (expected actual : Nat) : Prop :=
  exec i s = .next (s.respond (.bufferSizeMismatch expected actual))

/-- Two outcomes the host cannot tell apart by the response and buffer memory. -/
def sameAnswer : Result → Result → Prop
  | .next t, .next t' => t.bm = t'.bm ∧ t.responses = t'.responses
  | .refused a, .refused b => a = b
  | .fault a, .fault b => a = b
  | .next _, .refused _ | .next _, .fault _ => False
  | .refused _, .next _ | .refused _, .fault _ => False
  | .fault _, .next _ | .fault _, .refused _ => False

/-- Two outcomes with the same response. -/
def sameResponse : Result → Result → Prop
  | .next t, .next t' => t.responses = t'.responses
  | .refused a, .refused b => a = b
  | .fault a, .fault b => a = b
  | .next _, .refused _ | .next _, .fault _ => False
  | .refused _, .next _ | .refused _, .fault _ => False
  | .fault _, .next _ | .fault _, .refused _ => False

/-- The two requests agree on the ports and lanes the command's rule names (30 R75). -/
def agreeOnNamed : Instr → Request → Request → Prop
  | .nbytes _, _, _ | .bitw _, _, _ | .mask _, _, _ | .vmask _ _, _, _ => True
  | .fromp t _, r, r' | .ntom t, r, r' | .ntol t, r, r' | .packm t _, r, r' | .packl t _, r, r' =>
    low t.width r.val = low t.width r'.val
  | .mton t, r, r' | .lton t, r, r' => ∀ j, j < t.width / 8 → lane r.bytes j = lane r'.bytes j
  | .unpkm _ n, r, r' | .unpkl _ n, r, r' => ∀ j, j < B n → lane r.bytes j = lane r'.bytes j
  | .packsm t _, r, r' | .packsl t _, r, r' =>
    low t.width r.val = low t.width r'.val ∧ r.addr = r'.addr ∧ r.len = r'.len
  | .unpksm _ _, r, r' | .unpksl _ _, r, r' => r.addr = r'.addr ∧ r.len = r'.len

/-- The native type of a command, where it has one. -/
def typeOf : Instr → Option NType
  | .nbytes _ | .bitw _ | .mask _ => none
  | .ntom t | .ntol t | .mton t | .lton t => some t
  | .vmask t _ | .fromp t _ | .packm t _ | .packl t _ | .unpkm t _ | .unpkl t _
  | .packsm t _ | .packsl t _ | .unpksm t _ | .unpksl t _ => some t

/-- The commands with a native type. -/
def typedCommands : List (NType → BitVec 7 → Instr) :=
  [.vmask, .fromp, fun t _ => .ntom t, fun t _ => .ntol t, fun t _ => .mton t, fun t _ => .lton t,
   .packm, .packl, .unpkm, .unpkl, .packsm, .packsl, .unpksm, .unpksl]

/-- The operations that write buffer memory (20 R41). -/
def writesMemory (i : Instr) : Prop := i.op = .packsm ∨ i.op = .packsl

/-- The operations that read buffer memory (20 R41). -/
def readsMemory (i : Instr) : Prop := i.op = .unpksm ∨ i.op = .unpksl

/-- A byte-array operand `a` of length `k` with the top `8*B - N` bits of entry `j` cleared. -/
def clearPadding (n : BitVec 7) (j : Nat) (a : List Byte) : List Byte :=
  a.modify j fun b => b &&& BitVec.ofNat 8 (2 ^ (n.toNat - 8 * (B n - 1)) - 1)

/-- An `Ok` pack to a slice: the bytes `f 0, f 1, ..` at ADDR and up, every other byte and everything
else but the response record as before. -/
def writesSlice (i : Instr) (s : State) (k : Nat) (f : Nat → Byte) : Prop :=
  ∃ t, exec i s = .next t ∧ t.responses = s.responses ++ [.ok .nothing] ∧
    t.cfg = s.cfg ∧ t.ports = s.ports ∧ t.pending = s.pending ∧
    ∀ a, Memory.byteAt t.bm a =
      if s.ports.addr ≤ a ∧ a < s.ports.addr + k then f (a - s.ports.addr)
      else Memory.byteAt s.bm a

end Sys2Proof.Claims

open Sys2Proof Sys2Proof.Machine Sys2Proof.Claims

/-! ### Encoding (spec 30) -/

/-- 30 R76, R83: the word of every legal command decodes to that command, with its type and width. -/
def Obligations.DecodeOfEncodeIsTheCommand : Prop :=
  ∀ i : Instr, i.wf = true → decode (encode i) = .ok i

/-- 30 R78: the must-be-zero fields, and decode one-to-one. -/
def Obligations.EncodeOfDecodeIsTheWord : Prop :=
  (∀ cw i, decode cw = .ok i → i.wf = true ∧ encode i = cw) ∧
  (∀ cw cw' i, decode cw = .ok i → decode cw' = .ok i → cw = cw') ∧
  (∀ cw, fieldZERO cw ≠ 0 → ∃ why, decode cw = .error why) ∧
  (∀ cw, fieldOP cw ∈ opcodesW → fieldT cw ≠ 0 → ∃ why, decode cw = .error why) ∧
  (∀ cw, fieldOP cw ∈ opcodesT → fieldN cw ≠ 0 → ∃ why, decode cw = .error why)

/-- 30 R70: the four fields of a command word and the formats, and the pattern of the word. -/
def Obligations.EncodedFieldsStandInTheirPlaces : Prop :=
  ∀ i : Instr,
    fieldOP (encode i) = i.op.code ∧ fieldT (encode i) = i.tcode ∧ fieldN (encode i) = i.nfield ∧
    fieldZERO (encode i) = 0 ∧
    encode i = (0#13 ++ i.nfield ++ i.tcode ++ i.op.code : BitVec 32) ∧
    (i.op.format = .W ↔ i.op ∈ [Op.nbytes, .bitw, .mask]) ∧
    (i.op.format = .T ↔ i.op ∈ [Op.ntom, .ntol, .mton, .lton]) ∧
    (i.op.format = .TN ↔ i.op ∈ [Op.vmask, .fromp, .packm, .packl, .unpkm, .unpkl,
      .packsm, .packsl, .unpksm, .unpksl]) ∧
    (i.op.format = .W → i.tcode = 0) ∧ (i.op.format = .T → i.nfield = 0)

/-- 30 R83: the word of a line, and the rule's three examples. -/
def Obligations.AssembledLineHasItsWord : Prop :=
  (∀ cfg l r, assemble cfg l = some r →
    r.cw = wordOf l.op.code.toNat ((l.type.map fun t => t.code.toNat).getD 0) (l.n.getD 0)) ∧
  (∀ v a k, v < 2 ^ 64 → a < 2 ^ 32 → k < 2 ^ 32 →
    ∃ r, assemble Config.suggested ⟨.packsm, some .u32, some 24, .packSlice v a k⟩ = some r ∧
      r.cw = 0x00018230 ∧ r.val.toNat = v ∧ r.addr = a ∧ r.len = k) ∧
  (∀ v, v < 2 ^ 64 →
    ∃ r, assemble Config.suggested ⟨.ntol, some .u64, none, .value v⟩ = some r ∧
      r.cw = 0x00000311 ∧ r.val.toNat = v) ∧
  (∃ r, assemble Config.suggested ⟨.mask, none, some 64, .none⟩ = some r ∧ r.cw = 0x00040002)

/-- 30 R84: the four other spellings read as the command they stand for, whatever follows, and SWAP is
NTOM then LTON on the bytes NTOM returned, which answers the value with its bytes reversed. -/
def Obligations.PseudoCommandsExpand : Prop :=
  (∀ rest, readLine (['P', 'A', 'C', 'K', '.', 'M', '.'] ++ rest) =
    readLine (['P', 'A', 'C', 'K', 'M', '.'] ++ rest)) ∧
  (∀ rest, readLine (['P', 'A', 'C', 'K', '.', 'L', '.'] ++ rest) =
    readLine (['P', 'A', 'C', 'K', 'L', '.'] ++ rest)) ∧
  (∀ rest, readLine (['U', 'N', 'P', 'A', 'C', 'K', '.', 'M', '.'] ++ rest) =
    readLine (['U', 'N', 'P', 'K', 'M', '.'] ++ rest)) ∧
  (∀ rest, readLine (['U', 'N', 'P', 'A', 'C', 'K', '.', 'L', '.'] ++ rest) =
    readLine (['U', 'N', 'P', 'K', 'L', '.'] ++ rest)) ∧
  (∀ cfg bm t v, v < 2 ^ 64 →
    ∃ r1 L k r2 w, assemble cfg (swapFirst t v) = some r1 ∧
      transact cfg bm r1 = (bm, .ok (.bytes L k)) ∧
      assemble cfg (swapSecond t L) = some r2 ∧
      transact cfg bm r2 = (bm, .ok (.value w)) ∧ w.toNat < 2 ^ t.width ∧
      ∀ j, j < t.width / 8 →
        w.extractLsb' (8 * j) 8 = (BitVec.ofNat 64 v).extractLsb' (t.width - 8 * (j + 1)) 8)

/-- 30 R74: the type codes, `W = 8 << T[1:0]`, `NB = 1 << T[1:0]`, the classes, the reserved codes. -/
def Obligations.TypeCodesGiveTheWidths : Prop :=
  (∀ t : NType, NType.ofCode t.code = some t ∧
    t.width = 8 <<< (t.code.extractLsb' 0 2).toNat ∧
    t.width / 8 = 1 <<< (t.code.extractLsb' 0 2).toNat) ∧
  (∀ c : BitVec 4, NType.ofCode c = none ↔ c ∈ [0x8#4, 0x9#4, 0xC#4, 0xD#4, 0xE#4, 0xF#4]) ∧
  NType.all.map NType.code = [0x0, 0x1, 0x2, 0x3, 0x4, 0x5, 0x6, 0x7, 0xA, 0xB] ∧
  NType.all.map NType.width = [8, 16, 32, 64, 8, 16, 32, 64, 32, 64] ∧
  (∀ t : NType, (t ∈ [NType.u8, .u16, .u32, .u64] ↔ t.code.extractLsb' 2 2 = 0) ∧
    (t ∈ [NType.i8, .i16, .i32, .i64] ↔ t.code.extractLsb' 2 2 = 1) ∧
    (t ∈ [NType.f32, .f64] ↔ t.code.extractLsb' 2 2 = 2))

/-- 30 R71, R73: the high nibble is the family, bit 0 the byte order, bit 1 the direction. -/
def Obligations.OpcodeBitsNameFamilyOrderDirection : Prop :=
  (∀ op : Op,
    (op ∈ [Op.nbytes, .bitw, .mask, .vmask, .fromp] ↔ op.code.extractLsb' 4 4 = 0) ∧
    (op ∈ [Op.ntom, .ntol, .mton, .lton] ↔ op.code.extractLsb' 4 4 = 1) ∧
    (op ∈ [Op.packm, .packl, .unpkm, .unpkl] ↔ op.code.extractLsb' 4 4 = 2) ∧
    (op ∈ [Op.packsm, .packsl, .unpksm, .unpksl] ↔ op.code.extractLsb' 4 4 = 3)) ∧
  (∀ c : BitVec 8, 4 ≤ (c.extractLsb' 4 4).toNat → Op.ofCode c = none) ∧
  (∀ op : Op, op.code.extractLsb' 4 4 ≠ 0 →
    (op.code.getLsbD 0 = true ↔
      op ∈ [Op.ntol, .lton, .packl, .unpkl, .packsl, .unpksl]) ∧
    (op.code.getLsbD 1 = true ↔
      op ∈ [Op.mton, .lton, .unpkm, .unpkl, .unpksm, .unpksl]))

/-- 30 R77: the opcode table, and a word selects a row when `(w & mask) = match` and the row's
conditions on `T` and `N` hold. -/
def Obligations.RowIsSelectedByMaskAndMatch : Prop :=
  (Op.all.map fun op => (op.rowMatch, op.format.rowMask)) =
    [(0x00000000, 0xFFF80FFF), (0x00000001, 0xFFF80FFF), (0x00000002, 0xFFF80FFF),
     (0x00000003, 0xFFF800FF), (0x00000004, 0xFFF800FF),
     (0x00000010, 0xFFFFF0FF), (0x00000011, 0xFFFFF0FF), (0x00000012, 0xFFFFF0FF),
     (0x00000013, 0xFFFFF0FF),
     (0x00000020, 0xFFF800FF), (0x00000021, 0xFFF800FF), (0x00000022, 0xFFF800FF),
     (0x00000023, 0xFFF800FF),
     (0x00000030, 0xFFF800FF), (0x00000031, 0xFFF800FF), (0x00000032, 0xFFF800FF),
     (0x00000033, 0xFFF800FF)] ∧
  (Op.all.map fun op => String.ofList op.mnemonic) =
    ["NBYTES", "BITW", "MASK", "VMASK", "FROMP", "NTOM", "NTOL", "MTON", "LTON",
     "PACKM", "PACKL", "UNPKM", "UNPKL", "PACKSM", "PACKSL", "UNPKSM", "UNPKSL"] ∧
  (∀ op : Op, op ∈ Op.all) ∧
  ∀ (cw : CommandWord) (op : Op),
    (∃ i, decode cw = .ok i ∧ i.op = op) ↔
      (cw &&& op.format.rowMask = op.rowMatch ∧ ¬ widthOutside cw ∧
        (op.format ≠ .W → ¬ typeReserved cw))

/-- Words written out from the fields of 30 R70, one or more a family. -/
def Obligations.SampleWordsDecode : Prop :=
  decode 0b00000000000000001010000000000000#32 = .ok (.nbytes 10) ∧
  decode 0b00000000000000011000000000000001#32 = .ok (.bitw 24) ∧
  decode 0b00000000000001111111000000000010#32 = .ok (.mask 127) ∧
  decode 0b00000000000000001010010100000011#32 = .ok (.vmask .i16 10) ∧
  decode 0b00000000000000000000101100010011#32 = .ok (.lton .f64) ∧
  decode 0b00000000000000011000001000100000#32 = .ok (.packm .u32 24) ∧
  decode 0b00000000000000100000001000110010#32 = .ok (.unpksm .u32 32) ∧
  decode 0b00000000000010001000001000100000#32 = .error .reservedBits ∧
  decode 0b00000000000000001001000000100000#32 = .error .widthRange

/-! ### Requests and steps (spec 10, 30, 60, 70) -/

/-- 30 R81: a request is illegal exactly by (a) to (g), and refused then; a legal one is answered, by one
response, `Ok` or `BufferSizeMismatch`. -/
def Obligations.RequestIsIllegalExactlyByItsBits : Prop :=
  ∀ (s : State) (r : Request) (rest : List HostAction), s.pending = .command r :: rest →
    (IllegalRequest s.cfg r → ∃ why, step s = .refused (.illegal why)) ∧
    (¬ IllegalRequest s.cfg r →
      ∃ t resp, step s = .next t ∧ t.responses = s.responses ++ [resp] ∧
        (resp.status = 0 ∨ resp.status = 1))

/-- 60 R203: the unit answers an illegal request with STATUS 2, no payload and no other effect, and the
model's step refuses it. -/
def Obligations.IllegalRequestHasNoEffect : Prop :=
  ∀ (cfg : Config) (bm : Memory) (r : Request), IllegalRequest cfg r →
    transact cfg bm r = (bm, .illegal) ∧ Response.status .illegal = 2 ∧
    (Response.rval .illegal = none ∧ Response.rbytes .illegal = none ∧ Response.rlen .illegal = none ∧
      Response.expected .illegal = none ∧ Response.actual .illegal = none) ∧
    ∀ (s : State) (rest : List HostAction), s.cfg = cfg → s.pending = .command r :: rest →
      ∃ why, step s = .refused (.illegal why)

/-- 60 R206: first `Illegal`, then `BufferSizeMismatch` with no byte of memory accessed, then the result. -/
def Obligations.ChecksInOrder : Prop :=
  ∀ (s : State) (r : Request) (rest : List HostAction), s.pending = .command r :: rest →
    (IllegalRequest s.cfg r → ∃ why, step s = .refused (.illegal why)) ∧
    (¬ IllegalRequest s.cfg r → SizeMismatch r →
      step s = .next ((s.present r rest).respond (.bufferSizeMismatch (requestBytes r) r.len))) ∧
    (¬ IllegalRequest s.cfg r → ¬ SizeMismatch r →
      ∃ t p, step s = .next t ∧ t.responses = s.responses ++ [.ok p])

/-- A step at a pending request whose word decodes runs the command on the request's ports. -/
def Obligations.StepRunsDecodedCommand : Prop :=
  ∀ (s : State) (r : Request) (rest : List HostAction) (i : Instr),
    s.pending = .command r :: rest → decode r.cw = .ok i →
    step s = exec i { s with ports := r, pending := rest }

/-- 10 R31, 70 R230: reset between transactions changes nothing and leaves buffer memory as it is, and
what it is put before answers as without it. -/
def Obligations.HostResetChangesNothing : Prop :=
  (∀ (s : State) (rest : List HostAction), s.pending = .reset :: rest →
    step s = .next { s with pending := rest }) ∧
  (∀ (s : State) (rest : List HostAction), s.pending = .reset :: rest →
    ∃ t, step s = .next t ∧ t.bm = s.bm ∧ t.responses = s.responses ∧
      step t = step { s with pending := rest })

/-- 10 R27, 20 R51 (the model's own host action, notes/assumptions/9.md): the host's write changes its
byte only; an address that does not exist faults. -/
def Obligations.HostStoreWritesItsByte : Prop :=
  ∀ (s : State) (a : Nat) (b : Byte) (rest : List HostAction), s.pending = .store a b :: rest →
    (a < s.cfg.space →
      ∃ t, step s = .next t ∧ t.cfg = s.cfg ∧ t.ports = s.ports ∧ t.pending = rest ∧
        t.responses = s.responses ∧
        ∀ x, Memory.byteAt t.bm x = if x = a then b else Memory.byteAt s.bm x) ∧
    (s.cfg.space ≤ a → step s = .fault (.noSuchAddress a))

/-- 00 R14, 60 R212 (the model's idle step, notes/assumptions/15.md): with nothing to do, the unit stays as
it is. -/
def Obligations.IdleUnitStays : Prop :=
  ∀ s : State, s.pending = [] → step s = .next s

/-- The state after reset (notes/assumptions/1.md to 5.md): the model's choices, with no byte of memory
known and the unit idle. -/
def Obligations.ResetState : Prop :=
  State.reset.cfg.abits = 32 ∧ State.reset.pending = [] ∧ State.reset.responses = [] ∧
  State.reset.ports = Request.zero ∧ (∀ a, Memory.find State.reset.bm a = none) ∧
  (∀ a, Memory.byteAt State.reset.bm a = Config.initialByte a) ∧
  step State.reset = .next State.reset

/-- The invariant holds after reset. -/
def Obligations.ResetMeetsTheInvariant : Prop := State.reset.inv = true

/-- Every step keeps the invariant. -/
def Obligations.StepKeepsTheInvariant : Prop :=
  ∀ s t : State, s.inv = true → step s = .next t → t.inv = true

/-- 30 R80: a slice that wraps is illegal, decoding looks at nothing else beyond CW, and past the size
check all `B` addresses exist, so no command ever faults. -/
def Obligations.SliceNeverWrapsOrFaults : Prop :=
  (∀ (s : State) (t : NType) (n : BitVec 7), 1 ≤ n.toNat → n.toNat ≤ t.width →
    s.ports.addr + s.ports.len > 2 ^ s.cfg.abits →
    exec (.packsm t n) s = .refused (.illegal .sliceWrap) ∧
    exec (.packsl t n) s = .refused (.illegal .sliceWrap) ∧
    exec (.unpksm t n) s = .refused (.illegal .sliceWrap) ∧
    exec (.unpksl t n) s = .refused (.illegal .sliceWrap)) ∧
  (∀ (i : Instr) (s : State), exec i s = .refused (.illegal .sliceWrap) →
    (writesMemory i ∨ readsMemory i) ∧ s.ports.addr + s.ports.len > 2 ^ s.cfg.abits) ∧
  (∀ (i : Instr) (s t : State) (p : Payload), exec i s = .next t →
    t.responses = s.responses ++ [.ok p] → writesMemory i ∨ readsMemory i →
    ∀ j, j < B i.nfield → s.ports.addr + j < 2 ^ s.cfg.abits) ∧
  (∀ (i : Instr) (s : State) (f : Fault), exec i s ≠ .fault f)

/-- 10 R33: a step at a request is a function of buffer memory and the request alone, whatever the
ports and the responses before; the 13 commands that do not touch memory leave it as it is. -/
def Obligations.AnswerDependsOnMemoryAndRequestOnly : Prop :=
  (∀ (s t : State) (r : Request) (rest : List HostAction), s.pending = .command r :: rest →
    step s = .next t →
    t = ⟨s.cfg, (transact s.cfg s.bm r).1, r, rest, s.responses ++ [(transact s.cfg s.bm r).2]⟩) ∧
  (∀ (cfg : Config) (bm bm' : Memory) (r : Request) (i : Instr), decode r.cw = .ok i →
    ¬ writesMemory i → ¬ readsMemory i →
    (transact cfg bm r).1 = bm ∧ (transact cfg bm r).2 = (transact cfg bm' r).2)

/-- 10 R34: a port or lane a command does not name cannot change the response or buffer memory, and the
lanes of RBYTES from RLEN on are zero. -/
def Obligations.UnusedPortsAreIgnored : Prop :=
  (∀ (i : Instr) (s : State) (r r' : Request), agreeOnNamed i r r' →
    sameAnswer (exec i { s with ports := r }) (exec i { s with ports := r' })) ∧
  (∀ (i : Instr) (s t : State) (L : Lanes) (k : BitVec 4), exec i s = .next t →
    t.responses = s.responses ++ [.ok (.bytes L k)] → ∀ j, k.toNat ≤ j → lane L j = 0)

/-- 10 R35: for `W < 64` the bits of VAL from `W` on are ignored and those of RVAL are zero. -/
def Obligations.HighBitsOfValuePorts : Prop :=
  (∀ (i : Instr) (t : NType) (s : State) (v v' : Word), typeOf i = some t →
    (∀ b, b < t.width → v.getLsbD b = v'.getLsbD b) →
    sameAnswer (exec i { s with ports := { s.ports with val := v } })
      (exec i { s with ports := { s.ports with val := v' } })) ∧
  (∀ (i : Instr) (t : NType) (s s' : State) (v : Word), typeOf i = some t → exec i s = .next s' →
    s'.responses = s.responses ++ [.ok (.value v)] → ∀ b, t.width ≤ b → v.getLsbD b = false)

/-- 10 R29: two native types of the same width give the same answer to the same request bits. -/
def Obligations.SameWidthTypesAnswerAlike : Prop :=
  ∀ mk ∈ typedCommands, ∀ (t t' : NType) (n : BitVec 7) (s : State), t.width = t'.width →
    exec (mk t n) s = exec (mk t' n) s

/-! ### The functions (spec 40, 41, 42) -/

/-- 40 R100: the minimal byte count, its values and the number of padding bits. -/
def Obligations.BytesForIsTheMinimalByteCount : Prop :=
  ∀ N, 1 ≤ N → N ≤ 64 →
    bytesFor N = (N + 7) / 8 ∧ N ≤ 8 * bytesFor N ∧ (∀ k, N ≤ 8 * k → bytesFor N ≤ k) ∧
    8 * bytesFor N - N ≤ 7 ∧ 1 ≤ bytesFor N ∧ bytesFor N ≤ 8

/-- 41 R120, R121: byte `i` of the native byte arrays. -/
def Obligations.NativeBytesAreTheSlices : Prop :=
  ∀ (W : Nat) (v : BitVec W), W ∈ [8, 16, 32, 64] →
    (nativeToMsb W v).length = W / 8 ∧ (nativeToLsb W v).length = W / 8 ∧
    (∀ i, i < W / 8 →
      (nativeToMsb W v)[i]? = some (v.extractLsb' (W - 8 * i - 8) 8) ∧
      (nativeToMsb W v)[i]? = some (((v >>> (W - 8 * (i + 1))) &&& 0xFF).setWidth 8) ∧
      (nativeToLsb W v)[i]? = some (v.extractLsb' (8 * i) 8) ∧
      (nativeToLsb W v)[i]? = some (((v >>> (8 * i)) &&& 0xFF).setWidth 8)) ∧
    (W = 8 → nativeToMsb W v = [v.setWidth 8] ∧ nativeToLsb W v = [v.setWidth 8])

/-- 41 R122, R123: the value is the concatenation of its bytes, the first one highest in MSB order, the
last one highest in LSB order. -/
def Obligations.NativeValueIsTheConcatenation : Prop :=
  ∀ (W : Nat) (a : List Byte), W ∈ [8, 16, 32, 64] → a.length = W / 8 →
    (nativeFromMsb W a).toNat = a.foldl (fun v b => v * 256 + b.toNat) 0 ∧
    (nativeFromLsb W a).toNat = a.foldr (fun b v => v * 256 + b.toNat) 0

/-- 41 R129 (a) to (d). -/
def Obligations.NativeConversionsInvert : Prop :=
  ∀ (W : Nat) (v : BitVec W) (a : List Byte), W ∈ [8, 16, 32, 64] → a.length = W / 8 →
    nativeFromMsb W (nativeToMsb W v) = v ∧ nativeToMsb W (nativeFromMsb W a) = a ∧
    nativeFromLsb W (nativeToLsb W v) = v ∧ nativeToLsb W (nativeFromLsb W a) = a ∧
    nativeToLsb W v = (nativeToMsb W v).reverse ∧ nativeFromLsb W a = nativeFromMsb W a.reverse ∧
    (W = 8 → nativeToMsb W v = [v.setWidth 8] ∧ nativeToLsb W v = [v.setWidth 8] ∧
      ∀ b : Byte, nativeFromMsb W [b] = b.setWidth W ∧ nativeFromLsb W [b] = b.setWidth W)

/-- 41 R131: LTON on NTOM's bytes, or MTON on NTOL's, answers the value with its bytes reversed; twice
is the value. -/
def Obligations.SwapReversesTheBytes : Prop :=
  ∀ (t : NType) (s : State),
    ∃ L k L' k' w,
      answersOk (.ntom t) s (.bytes L k) ∧ answersOk (.ntol t) s (.bytes L' k') ∧
      answersOk (.lton t) { s with ports := { s.ports with bytes := L } }
        (.value w) ∧
      answersOk (.mton t) { s with ports := { s.ports with bytes := L' } }
        (.value w) ∧
      w.toNat < 2 ^ t.width ∧
      (∀ j, j < t.width / 8 →
        w.extractLsb' (8 * j) 8 = s.ports.val.extractLsb' (t.width - 8 * (j + 1)) 8) ∧
      (t.width = 8 → w = low 8 s.ports.val) ∧
      ∃ L2 k2, answersOk (.ntom t) { s with ports := { s.ports with val := w } } (.bytes L2 k2) ∧
        answersOk (.lton t) { s with ports := { s.ports with bytes := L2 } }
          (.value (low t.width s.ports.val))

/-- 42 R140, R141: the bits of the masks. -/
def Obligations.MasksHaveTheirBits : Prop :=
  (∀ N : Nat, mask64 N = (if N = 0 then 0 else if N ≤ 63 then BitVec.ofNat 64 (2 ^ N - 1)
      else 0xFFFFFFFFFFFFFFFF) ∧
    ∀ i, i < 64 → (mask64 N).getLsbD i = decide (i < N)) ∧
  (∀ W N : Nat, W ∈ [8, 16, 32, 64] →
    maskW W N = (mask64 N).extractLsb' 0 W ∧
    (N < W → (maskW W N).toNat = 2 ^ N - 1) ∧ (W ≤ N → maskW W N = BitVec.allOnes W))

/-- 42 R142: `from_primitive` keeps bits N-1 to 0 and clears the rest; it is idempotent, and the
identity when N = W. -/
def Obligations.FromPrimitiveKeepsTheLowBits : Prop :=
  ∀ (W N : Nat) (v : BitVec W), W ∈ [8, 16, 32, 64] →
    fromPrimitive W N v = v &&& maskW W N ∧
    (∀ i, (fromPrimitive W N v).getLsbD i = (v.getLsbD i && decide (i < N))) ∧
    fromPrimitive W N v &&& maskW W N = fromPrimitive W N v ∧
    fromPrimitive W N (fromPrimitive W N v) = fromPrimitive W N v ∧
    fromPrimitive W W v = v

/-- 42 R149, R150: the minimal byte arrays of a conformant value, and their zero padding. -/
def Obligations.SizedBytesAreTheSlices : Prop :=
  ∀ (W N : Nat) (v : BitVec W), W ∈ [8, 16, 32, 64] → 1 ≤ N → N ≤ W → v &&& maskW W N = v →
    (svToMsb W N v).length = bytesFor N ∧ (svToLsb W N v).length = bytesFor N ∧
    (∀ j, j < bytesFor N →
      (svToMsb W N v)[j]? = (nativeToMsb W v)[W / 8 - bytesFor N + j]? ∧
      (svToMsb W N v)[j]? = some (v.extractLsb' (8 * (bytesFor N - j - 1)) 8) ∧
      (svToLsb W N v)[j]? = (nativeToLsb W v)[j]? ∧
      (svToLsb W N v)[j]? = some (v.extractLsb' (8 * j) 8)) ∧
    (∀ j, j < W / 8 - bytesFor N → (nativeToMsb W v)[j]? = some 0) ∧
    (((svToMsb W N v).getD 0 0).toNat < 2 ^ (N - 8 * (bytesFor N - 1))) ∧
    (((svToLsb W N v).getD (bytesFor N - 1) 0).toNat < 2 ^ (N - 8 * (bytesFor N - 1)))

/-- 42 R151, R152: the value of a minimal byte array, re-masked. -/
def Obligations.SizedValueIsTheMaskedConcatenation : Prop :=
  ∀ (W N : Nat) (a : List Byte), W ∈ [8, 16, 32, 64] → 1 ≤ N → N ≤ W → a.length = bytesFor N →
    svFromMsb W N a = fromPrimitive W N
      (nativeFromMsb W (List.replicate (W / 8 - bytesFor N) 0 ++ a)) ∧
    svFromMsb W N a = BitVec.ofNat W (a.foldl (fun v b => v * 256 + b.toNat) 0) &&& maskW W N ∧
    svFromLsb W N a = fromPrimitive W N
      (nativeFromLsb W (a ++ List.replicate (W / 8 - bytesFor N) 0)) ∧
    svFromLsb W N a = BitVec.ofNat W (a.foldr (fun b v => v * 256 + b.toNat) 0) &&& maskW W N

/-- 42 R157: the round trip, of the functions and of the commands. -/
def Obligations.PackThenUnpackIsTheMaskedValue : Prop :=
  (∀ (W N : Nat) (v : BitVec W), W ∈ [8, 16, 32, 64] → 1 ≤ N → N ≤ W →
    svFromMsb W N (svToMsb W N (fromPrimitive W N v)) = fromPrimitive W N v ∧
    svFromLsb W N (svToLsb W N (fromPrimitive W N v)) = fromPrimitive W N v) ∧
  (∀ (t : NType) (n : BitVec 7) (s : State), 1 ≤ n.toNat → n.toNat ≤ t.width →
    ∃ v L k L' k', answersOk (.fromp t n) s (.value v) ∧
      answersOk (.packm t n) s (.bytes L k) ∧
      answersOk (.unpkm t n) { s with ports := { s.ports with bytes := L } } (.value v) ∧
      answersOk (.packl t n) s (.bytes L' k') ∧
      answersOk (.unpkl t n) { s with ports := { s.ports with bytes := L' } } (.value v))

/-- 42 R158, 10 R26: every masked value returned has no bit at or above position N, and neither has the
value a pack encodes. -/
def Obligations.ReturnedValuesAreConformant : Prop :=
  (∀ (W N : Nat) (v : BitVec W) (i : Nat), N ≤ i → (fromPrimitive W N v).getLsbD i = false) ∧
  (∀ (t : NType) (n : BitVec 7) (s s' : State) (v : Word) (i : Instr),
    i ∈ [Instr.fromp t n, .unpkm t n, .unpkl t n, .unpksm t n, .unpksl t n] →
    exec i s = .next s' → s'.responses = s.responses ++ [.ok (.value v)] →
    ∀ b, n.toNat ≤ b → v.getLsbD b = false) ∧
  (∀ (t : NType) (n : BitVec 7) (s s' : State) (L : Lanes) (k : BitVec 4),
    (exec (.packm t n) s = .next s' → s'.responses = s.responses ++ [.ok (.bytes L k)] →
      ∀ b, n.toNat ≤ b → b < 8 * B n → msbBit (lane L) (B n) b = false) ∧
    (exec (.packl t n) s = .next s' → s'.responses = s.responses ++ [.ok (.bytes L k)] →
      ∀ b, n.toNat ≤ b → b < 8 * B n → lsbBit (lane L) b = false)) ∧
  (∀ (t : NType) (n : BitVec 7) (s s' : State),
    (exec (.packsm t n) s = .next s' → s'.responses = s.responses ++ [.ok .nothing] →
      ∀ b, n.toNat ≤ b → b < 8 * B n →
        msbBit (fun j => Memory.byteAt s'.bm (s.ports.addr + j)) (B n) b = false) ∧
    (exec (.packsl t n) s = .next s' → s'.responses = s.responses ++ [.ok .nothing] →
      ∀ b, n.toNat ≤ b → b < 8 * B n →
        lsbBit (fun j => Memory.byteAt s'.bm (s.ports.addr + j)) b = false))

/-- 42 R159: the padding bits of the input are discarded, and packing after unpacking clears them. -/
def Obligations.PaddingBitsAreDiscarded : Prop :=
  ∀ (W : Nat) (n : BitVec 7) (a : List Byte), W ∈ [8, 16, 32, 64] → 1 ≤ n.toNat → n.toNat ≤ W →
    a.length = B n →
    svFromMsb W n.toNat a = svFromMsb W n.toNat (clearPadding n 0 a) ∧
    svFromLsb W n.toNat a = svFromLsb W n.toNat (clearPadding n (B n - 1) a) ∧
    svToMsb W n.toNat (svFromMsb W n.toNat a) = clearPadding n 0 a ∧
    svToLsb W n.toNat (svFromLsb W n.toNat a) = clearPadding n (B n - 1) a ∧
    (clearPadding n 0 a = a ↔ (a.getD 0 0).toNat < 2 ^ (n.toNat - 8 * (B n - 1)))

/-- 42 R160: the LSB array is the MSB array reversed, for every width. -/
def Obligations.LsbIsMsbReversedForEveryWidth : Prop :=
  ∀ (W N : Nat) (v : BitVec W) (a : List Byte), W ∈ [8, 16, 32, 64] → 1 ≤ N → N ≤ W →
    v &&& maskW W N = v → a.length = bytesFor N →
    svToLsb W N v = (svToMsb W N v).reverse ∧ svFromLsb W N a = svFromMsb W N a.reverse

/-! ### The commands -/

/-- 40 R101: NBYTES. -/
def Obligations.NbytesAnswersTheMinimalByteCount : Prop :=
  encodesW 0x00 .nbytes 1 64 ∧
  ∀ (n : BitVec 7) (s : State), 1 ≤ n.toNat → n.toNat ≤ 64 →
    ∃ v : Word, answersOk (.nbytes n) s (.value v) ∧ v.toNat = (n.toNat + 7) / 8 ∧
      1 ≤ v.toNat ∧ v.toNat ≤ 8

/-- 40 R102: BITW. -/
def Obligations.BitwAnswersTheWidth : Prop :=
  encodesW 0x01 .bitw 1 64 ∧
  ∀ (n : BitVec 7) (s : State), 1 ≤ n.toNat → n.toNat ≤ 64 →
    ∃ v : Word, answersOk (.bitw n) s (.value v) ∧ v.toNat = n.toNat

/-- 42 R143: MASK, every N legal. -/
def Obligations.MaskAnswersTheMask : Prop :=
  encodesW 0x02 .mask 0 127 ∧
  ∀ (n : BitVec 7) (s : State),
    ∃ v : Word, answersOk (.mask n) s (.value v) ∧
      (∀ i, i < 64 → v.getLsbD i = decide (i < n.toNat)) ∧
      (64 ≤ n.toNat → v = 0xFFFFFFFFFFFFFFFF)

/-- 42 R144: VMASK. -/
def Obligations.VmaskAnswersTheTypedMask : Prop :=
  encodesTN 0x03 .vmask ∧
  ∀ (t : NType) (n : BitVec 7) (s : State), 1 ≤ n.toNat → n.toNat ≤ t.width →
    ∃ v : Word, answersOk (.vmask t n) s (.value v) ∧ v.toNat = 2 ^ n.toNat - 1 ∧
      answersOk (.mask n) s (.value v)

/-- 42 R146: FROMP. -/
def Obligations.FrompMasksTheValue : Prop :=
  encodesTN 0x04 .fromp ∧
  ∀ (t : NType) (n : BitVec 7) (s : State), 1 ≤ n.toNat → n.toNat ≤ t.width →
    answersOk (.fromp t n) s (.value (low n.toNat s.ports.val))

/-- 41 R124: NTOM. -/
def Obligations.NtomAnswersTheMsbBytes : Prop :=
  encodesT 0x10 .ntom ∧
  ∀ (t : NType) (s : State), ∃ L k, answersOk (.ntom t) s (.bytes L k) ∧
    bytesAre L k (t.width / 8) fun j => s.ports.val.extractLsb' (t.width - 8 * (j + 1)) 8

/-- 41 R125: NTOL. -/
def Obligations.NtolAnswersTheLsbBytes : Prop :=
  encodesT 0x11 .ntol ∧
  ∀ (t : NType) (s : State), ∃ L k, answersOk (.ntol t) s (.bytes L k) ∧
    bytesAre L k (t.width / 8) fun j => s.ports.val.extractLsb' (8 * j) 8

/-- 41 R126: MTON. -/
def Obligations.MtonAnswersTheValueOfMsbBytes : Prop :=
  encodesT 0x12 .mton ∧
  ∀ (t : NType) (s : State), ∃ v : Word, answersOk (.mton t) s (.value v) ∧
    v.toNat < 2 ^ t.width ∧
    ∀ i, i < t.width → v.getLsbD i = msbBit (lane s.ports.bytes) (t.width / 8) i

/-- 41 R127: LTON. -/
def Obligations.LtonAnswersTheValueOfLsbBytes : Prop :=
  encodesT 0x13 .lton ∧
  ∀ (t : NType) (s : State), ∃ v : Word, answersOk (.lton t) s (.value v) ∧
    v.toNat < 2 ^ t.width ∧ ∀ i, i < t.width → v.getLsbD i = lsbBit (lane s.ports.bytes) i

/-- 42 R153: PACKM, VAL masked first. -/
def Obligations.PackmAnswersTheMinimalMsbBytes : Prop :=
  encodesTN 0x20 .packm ∧
  ∀ (t : NType) (n : BitVec 7) (s : State), 1 ≤ n.toNat → n.toNat ≤ t.width →
    ∃ L k, answersOk (.packm t n) s (.bytes L k) ∧
      (bytesAre L k (B n) fun j => (low n.toNat s.ports.val).extractLsb' (8 * (B n - j - 1)) 8) ∧
      (n.toNat = t.width → answersOk (.ntom t) s (.bytes L k))

/-- 42 R154: PACKL, VAL masked first. -/
def Obligations.PacklAnswersTheMinimalLsbBytes : Prop :=
  encodesTN 0x21 .packl ∧
  ∀ (t : NType) (n : BitVec 7) (s : State), 1 ≤ n.toNat → n.toNat ≤ t.width →
    ∃ L k, answersOk (.packl t n) s (.bytes L k) ∧
      (bytesAre L k (B n) fun j => (low n.toNat s.ports.val).extractLsb' (8 * j) 8) ∧
      (n.toNat = t.width → answersOk (.ntol t) s (.bytes L k))

/-- 42 R155: UNPKM. -/
def Obligations.UnpkmAnswersTheMaskedValue : Prop :=
  encodesTN 0x22 .unpkm ∧
  ∀ (t : NType) (n : BitVec 7) (s : State), 1 ≤ n.toNat → n.toNat ≤ t.width →
    ∃ v : Word, answersOk (.unpkm t n) s (.value v) ∧ v.toNat < 2 ^ n.toNat ∧
      (∀ i, i < n.toNat → v.getLsbD i = msbBit (lane s.ports.bytes) (B n) i) ∧
      (n.toNat = t.width → answersOk (.mton t) s (.value v))

/-- 42 R156: UNPKL. -/
def Obligations.UnpklAnswersTheMaskedValue : Prop :=
  encodesTN 0x23 .unpkl ∧
  ∀ (t : NType) (n : BitVec 7) (s : State), 1 ≤ n.toNat → n.toNat ≤ t.width →
    ∃ v : Word, answersOk (.unpkl t n) s (.value v) ∧ v.toNat < 2 ^ n.toNat ∧
      (∀ i, i < n.toNat → v.getLsbD i = lsbBit (lane s.ports.bytes) i) ∧
      (n.toNat = t.width → answersOk (.lton t) s (.value v))

/-- 43 R174: PACKSM. -/
def Obligations.PacksmWritesTheMsbBytes : Prop :=
  encodesTN 0x30 .packsm ∧
  ∀ (t : NType) (n : BitVec 7) (s : State), 1 ≤ n.toNat → n.toNat ≤ t.width →
    (s.ports.addr + s.ports.len > 2 ^ s.cfg.abits →
      ∃ why, exec (.packsm t n) s = .refused (.illegal why)) ∧
    (s.ports.addr + s.ports.len ≤ 2 ^ s.cfg.abits → s.ports.len ≠ B n →
      answersMismatch (.packsm t n) s (B n) s.ports.len) ∧
    (s.ports.addr + s.ports.len ≤ 2 ^ s.cfg.abits → s.ports.len = B n →
      writesSlice (.packsm t n) s (B n) fun j =>
        (low n.toNat s.ports.val).extractLsb' (8 * (B n - j - 1)) 8)

/-- 43 R175: PACKSL. -/
def Obligations.PackslWritesTheLsbBytes : Prop :=
  encodesTN 0x31 .packsl ∧
  ∀ (t : NType) (n : BitVec 7) (s : State), 1 ≤ n.toNat → n.toNat ≤ t.width →
    (s.ports.addr + s.ports.len > 2 ^ s.cfg.abits →
      ∃ why, exec (.packsl t n) s = .refused (.illegal why)) ∧
    (s.ports.addr + s.ports.len ≤ 2 ^ s.cfg.abits → s.ports.len ≠ B n →
      answersMismatch (.packsl t n) s (B n) s.ports.len) ∧
    (s.ports.addr + s.ports.len ≤ 2 ^ s.cfg.abits → s.ports.len = B n →
      writesSlice (.packsl t n) s (B n) fun j =>
        (low n.toNat s.ports.val).extractLsb' (8 * j) 8)

/-- 43 R176: UNPKSM. -/
def Obligations.UnpksmAnswersTheMaskedValue : Prop :=
  encodesTN 0x32 .unpksm ∧
  ∀ (t : NType) (n : BitVec 7) (s : State), 1 ≤ n.toNat → n.toNat ≤ t.width →
    (s.ports.addr + s.ports.len > 2 ^ s.cfg.abits →
      ∃ why, exec (.unpksm t n) s = .refused (.illegal why)) ∧
    (s.ports.addr + s.ports.len ≤ 2 ^ s.cfg.abits → s.ports.len < B n →
      answersMismatch (.unpksm t n) s (B n) s.ports.len) ∧
    (s.ports.addr + s.ports.len ≤ 2 ^ s.cfg.abits → B n ≤ s.ports.len →
      ∃ v : Word, answersOk (.unpksm t n) s (.value v) ∧ v.toNat < 2 ^ n.toNat ∧
        ∀ i, i < n.toNat →
          v.getLsbD i = msbBit (fun j => Memory.byteAt s.bm (s.ports.addr + j)) (B n) i)

/-- 43 R177: UNPKSL. -/
def Obligations.UnpkslAnswersTheMaskedValue : Prop :=
  encodesTN 0x33 .unpksl ∧
  ∀ (t : NType) (n : BitVec 7) (s : State), 1 ≤ n.toNat → n.toNat ≤ t.width →
    (s.ports.addr + s.ports.len > 2 ^ s.cfg.abits →
      ∃ why, exec (.unpksl t n) s = .refused (.illegal why)) ∧
    (s.ports.addr + s.ports.len ≤ 2 ^ s.cfg.abits → s.ports.len < B n →
      answersMismatch (.unpksl t n) s (B n) s.ports.len) ∧
    (s.ports.addr + s.ports.len ≤ 2 ^ s.cfg.abits → B n ≤ s.ports.len →
      ∃ v : Word, answersOk (.unpksl t n) s (.value v) ∧ v.toNat < 2 ^ n.toNat ∧
        ∀ i, i < n.toNat →
          v.getLsbD i = lsbBit (fun j => Memory.byteAt s.bm (s.ports.addr + j)) i)

/-! ### Frames, memory and errors (spec 20, 43, 60) -/

/-- 20 R41: the frame of the 15 commands that write no memory: only one response is added. -/
def Obligations.NonWritingCommandsFrame : Prop :=
  ∀ (i : Instr) (s t : State), ¬ writesMemory i → exec i s = .next t →
    t.cfg = s.cfg ∧ t.ports = s.ports ∧ t.pending = s.pending ∧
    (∃ resp, t.responses = s.responses ++ [resp]) ∧
    ∀ a, Memory.byteAt t.bm a = Memory.byteAt s.bm a

/-- 20 R49: the frame of the slice commands: a pack writes the `B` bytes at ADDR, 1 to 8, when it answers
`Ok` and none when not, and reads none; an unpack writes none, and its answer depends on the `B` bytes
at ADDR, and on none where it does not answer `Ok`. -/
def Obligations.SliceCommandsTouchTheirBytesOnly : Prop :=
  (∀ (i : Instr) (s t : State), writesMemory i → exec i s = .next t →
    t.cfg = s.cfg ∧ t.ports = s.ports ∧ t.pending = s.pending ∧
    ((t.responses = s.responses ++ [.ok .nothing] ∧ s.ports.len = B i.nfield ∧
        1 ≤ B i.nfield ∧ B i.nfield ≤ 8 ∧ bytesWritten t.bm s.ports.addr (B i.nfield) = true ∧
        ∀ a, ¬(s.ports.addr ≤ a ∧ a < s.ports.addr + B i.nfield) →
          Memory.byteAt t.bm a = Memory.byteAt s.bm a) ∨
      (t.responses = s.responses ++ [.bufferSizeMismatch (B i.nfield) s.ports.len] ∧
        ∀ a, Memory.byteAt t.bm a = Memory.byteAt s.bm a))) ∧
  (∀ (i : Instr) (s : State) (bm : Memory), writesMemory i →
    sameResponse (exec i s) (exec i { s with bm := bm })) ∧
  (∀ (i : Instr) (s t : State), readsMemory i → exec i s = .next t →
    t.bm = s.bm ∧ 1 ≤ B i.nfield ∧ B i.nfield ≤ 8) ∧
  (∀ (i : Instr) (s : State) (bm : Memory), readsMemory i →
    (B i.nfield ≤ s.ports.len → ∀ j, j < B i.nfield →
      Memory.byteAt s.bm (s.ports.addr + j) = Memory.byteAt bm (s.ports.addr + j)) →
    sameResponse (exec i s) (exec i { s with bm := bm }))

/-- 60 R200, R201, R202: exactly the four slice commands raise `BufferSizeMismatch`, each under its one
condition, with EXPECTED = B and ACTUAL = LEN; STATUS is 1. -/
def Obligations.MismatchExactlyWhenTheSizeIsWrong : Prop :=
  (∀ (i : Instr) (s t : State) (e a : Nat), exec i s = .next t →
    (t.responses = s.responses ++ [.bufferSizeMismatch e a] ↔
      (((writesMemory i ∧ s.ports.len ≠ B i.nfield) ∨ (readsMemory i ∧ s.ports.len < B i.nfield)) ∧
        e = B i.nfield ∧ a = s.ports.len))) ∧
  (∀ (i : Instr) (s t : State) (e a : Nat), exec i s = .next t →
    t.responses = s.responses ++ [.bufferSizeMismatch e a] →
    1 ≤ e ∧ e ≤ 8 ∧ a ≠ e ∧ (readsMemory i → a < e) ∧
      t = s.respond (.bufferSizeMismatch e a)) ∧
  (∀ e a, Response.status (.bufferSizeMismatch e a) = 1 ∧
    Response.expected (.bufferSizeMismatch e a) = some e ∧
    Response.actual (.bufferSizeMismatch e a) = some a) ∧
  (∀ p, Response.expected (.ok p) = none ∧ Response.actual (.ok p) = none) ∧
  (Response.expected .illegal = none ∧ Response.actual .illegal = none)

/-- 43 R180: unpacking what a pack wrote, at any length that reaches `B`, answers the masked value; in
the other order it answers the value of the reversed image. -/
def Obligations.SliceRoundTrip : Prop :=
  ∀ (t : NType) (n : BitVec 7) (s s1 s2 : State), 1 ≤ n.toNat → n.toNat ≤ t.width →
    s.ports.len = B n → s.ports.addr + s.ports.len ≤ 2 ^ s.cfg.abits →
    s2.cfg = s.cfg → s2.ports.addr = s.ports.addr → B n ≤ s2.ports.len →
    s2.ports.addr + s2.ports.len ≤ 2 ^ s2.cfg.abits →
    (∀ j, j < B n → Memory.byteAt s2.bm (s.ports.addr + j) = Memory.byteAt s1.bm (s.ports.addr + j)) →
    (exec (.packsm t n) s = .next s1 →
      answersOk (.unpksm t n) s2 (.value (low n.toNat s.ports.val)) ∧
      ∃ v : Word, answersOk (.unpksl t n) s2 (.value v) ∧ v.toNat < 2 ^ n.toNat ∧
        ∀ i, i < n.toNat → v.getLsbD i =
          lsbBit (fun j => (low n.toNat s.ports.val).extractLsb' (8 * (B n - j - 1)) 8) i) ∧
    (exec (.packsl t n) s = .next s1 →
      answersOk (.unpksl t n) s2 (.value (low n.toNat s.ports.val)) ∧
      ∃ v : Word, answersOk (.unpksm t n) s2 (.value v) ∧ v.toNat < 2 ^ n.toNat ∧
        ∀ i, i < n.toNat → v.getLsbD i =
          msbBit (fun j => (low n.toNat s.ports.val).extractLsb' (8 * j) 8) (B n) i)

/-- 20 R44: the MSB memory image: its bytes, the zero padding of the first on a write, the same bytes
on the lanes; the value read from it, the padding ignored. -/
def Obligations.MsbImageInMemory : Prop :=
  ∀ (t : NType) (n : BitVec 7) (s : State), 1 ≤ n.toNat → n.toNat ≤ t.width →
    s.ports.addr + s.ports.len ≤ 2 ^ s.cfg.abits → s.ports.len = B n →
    (∃ s', exec (.packsm t n) s = .next s' ∧
      (∀ j, j < B n → Memory.byteAt s'.bm (s.ports.addr + j) =
        (low n.toNat s.ports.val).extractLsb' (8 * (B n - j - 1)) 8) ∧
      (Memory.byteAt s'.bm s.ports.addr).toNat < 2 ^ (n.toNat - 8 * (B n - 1)) ∧
      ∃ L k, answersOk (.packm t n) s (.bytes L k) ∧
        ∀ j, j < B n → lane L j = Memory.byteAt s'.bm (s.ports.addr + j)) ∧
    (∀ bm : Memory, (∀ j, 1 ≤ j → j < B n →
        Memory.byteAt bm (s.ports.addr + j) = Memory.byteAt s.bm (s.ports.addr + j)) →
      (∀ b, b < n.toNat - 8 * (B n - 1) →
        (Memory.byteAt bm s.ports.addr).getLsbD b = (Memory.byteAt s.bm s.ports.addr).getLsbD b) →
      ∃ v, answersOk (.unpksm t n) s (.value v) ∧
        answersOk (.unpksm t n) { s with bm := bm } (.value v) ∧ v.toNat < 2 ^ n.toNat ∧
        ∀ i, i < n.toNat →
          v.getLsbD i = msbBit (fun j => Memory.byteAt s.bm (s.ports.addr + j)) (B n) i)

/-- 20 R45: the LSB memory image: its bytes, the zero padding of the last on a write, the image the
reversal of the MSB one; the value read from it, the padding ignored. -/
def Obligations.LsbImageInMemory : Prop :=
  ∀ (t : NType) (n : BitVec 7) (s : State), 1 ≤ n.toNat → n.toNat ≤ t.width →
    s.ports.addr + s.ports.len ≤ 2 ^ s.cfg.abits → s.ports.len = B n →
    (∃ s' s'', exec (.packsl t n) s = .next s' ∧ exec (.packsm t n) s = .next s'' ∧
      (∀ j, j < B n → Memory.byteAt s'.bm (s.ports.addr + j) =
        (low n.toNat s.ports.val).extractLsb' (8 * j) 8) ∧
      (∀ j, j < B n → Memory.byteAt s'.bm (s.ports.addr + j) =
        Memory.byteAt s''.bm (s.ports.addr + (B n - 1 - j))) ∧
      (Memory.byteAt s'.bm (s.ports.addr + (B n - 1))).toNat < 2 ^ (n.toNat - 8 * (B n - 1))) ∧
    (∀ bm : Memory, (∀ j, j + 1 < B n →
        Memory.byteAt bm (s.ports.addr + j) = Memory.byteAt s.bm (s.ports.addr + j)) →
      (∀ b, b < n.toNat - 8 * (B n - 1) →
        (Memory.byteAt bm (s.ports.addr + (B n - 1))).getLsbD b =
          (Memory.byteAt s.bm (s.ports.addr + (B n - 1))).getLsbD b) →
      ∃ v, answersOk (.unpksl t n) s (.value v) ∧
        answersOk (.unpksl t n) { s with bm := bm } (.value v) ∧ v.toNat < 2 ^ n.toNat ∧
        ∀ i, i < n.toNat →
          v.getLsbD i = lsbBit (fun j => Memory.byteAt s.bm (s.ports.addr + j)) i)
end

