-- ==== Sys2Proof/Laws/Memory.lean ====
section
/-! SUPPORT. Buffer memory: a read after a write, and every memory operation keeps the canonical form. -/

namespace Sys2Proof.Machine

theorem find_write (m : Memory) (a x : Nat) (b : Byte) :
    Memory.find (Memory.write m a b) x = if a = x then some b else Memory.find m x := by
  induction m with
  | nil => rfl
  | cons c m ih =>
    obtain ⟨y, z⟩ := c
    simp only [Memory.write]
    split_ifs with h1 h2 h3 h4 h5 <;> simp only [Memory.find]
    all_goals first
      | rw [ih]; split_ifs <;> first | rfl | omega
      | split_ifs <;> first | rfl | omega

/-- A cell's address is that of a written cell or of an old one. -/
theorem mem_write (m : Memory) (a : Nat) (b : Byte) (c : Host.Cell) (h : c ∈ Memory.write m a b) :
    c.1 = a ∨ c ∈ m := by
  induction m with
  | nil => simp_all [Memory.write]
  | cons d m ih =>
    simp only [Memory.write] at h
    split_ifs at h <;> simp only [List.mem_cons] at h ⊢ <;> aesop

/-- The canonical form, as every address of the rest lying above the first. -/
theorem wf_cons (c : Host.Cell) (m : Memory) :
    Memory.wf (c :: m) ↔ (∀ d ∈ m, c.1 < d.1) ∧ Memory.wf m := by
  induction m generalizing c with
  | nil => simp [Memory.wf]
  | cons d m ih =>
    simp only [Memory.wf, Bool.and_eq_true, decide_eq_true_eq, List.mem_cons, forall_eq_or_imp]
    constructor
    · rintro ⟨h, hd⟩
      exact ⟨⟨h, fun e he => h.trans (((ih d).1 hd).1 e he)⟩, hd⟩
    · rintro ⟨⟨h, -⟩, hd⟩
      exact ⟨h, hd⟩

theorem wf_write (m : Memory) (a : Nat) (b : Byte) (h : Memory.wf m) :
    Memory.wf (Memory.write m a b) := by
  induction m with
  | nil => rfl
  | cons c m ih =>
    obtain ⟨hc, hm⟩ := (wf_cons _ _).1 h
    simp only [Memory.write]
    split_ifs with h1 h2
    · rw [wf_cons]
      exact ⟨fun d hd => by rcases List.mem_cons.1 hd with rfl | hd <;> [exact h1; exact h1.trans (hc d hd)], h⟩
    · subst h2
      exact (wf_cons _ _).2 ⟨hc, hm⟩
    · rw [wf_cons]
      refine ⟨fun d hd => ?_, ih hm⟩
      rcases mem_write m a b d hd with hd | hd
      · simp only [hd]; omega
      · exact hc d hd

theorem wf_writeBytes (bs : List Byte) (m : Memory) (a : Nat) (h : Memory.wf m) :
    Memory.wf (Memory.writeBytes m a bs) := by
  induction bs generalizing m a with
  | nil => exact h
  | cons b bs ih => exact ih _ _ (wf_write m a b h)

theorem find_writeBytes (bs : List Byte) (m : Memory) (a x : Nat) :
    Memory.find (Memory.writeBytes m a bs) x =
      if a ≤ x ∧ x < a + bs.length then bs[x - a]? else Memory.find m x := by
  induction bs generalizing m a with
  | nil =>
    simp only [Memory.writeBytes, List.length_nil]
    split_ifs with hx
    · omega
    · rfl
  | cons b bs ih =>
    simp only [Memory.writeBytes, List.length_cons]
    rw [ih, find_write]
    by_cases h2 : a = x
    · subst h2
      rw [if_neg (by omega), if_pos rfl, if_pos (by omega), Nat.sub_self, List.getElem?_cons_zero]
    · rw [if_neg h2]
      by_cases h1 : a + 1 ≤ x ∧ x < a + 1 + bs.length
      · rw [if_pos h1, if_pos (by omega), show x - a = (x - (a + 1)) + 1 by omega,
          List.getElem?_cons_succ]
      · rw [if_neg h1, if_neg (by omega)]

/-- Reading one byte after writing a run of bytes. -/
theorem byteAt_writeBytes (bs : List Byte) (m : Memory) (a x : Nat) :
    Memory.byteAt (Memory.writeBytes m a bs) x =
      if a ≤ x ∧ x < a + bs.length then bs.getD (x - a) 0 else Memory.byteAt m x := by
  rw [Memory.byteAt, find_writeBytes]
  split_ifs with hx
  · rw [List.getElem?_eq_getElem (by omega), List.getD_eq_getElem?_getD,
      List.getElem?_eq_getElem (by omega)]; rfl
  · rfl

/-- Writing inside the address space lists no address outside it. -/
theorem addresses_writeBytes (bs : List Byte) (m : Memory) (a limit : Nat)
    (h : ∀ c ∈ m, c.1 < limit) (ha : a + bs.length ≤ limit) :
    ∀ c ∈ Memory.writeBytes m a bs, c.1 < limit := by
  induction bs generalizing m a with
  | nil => exact h
  | cons b bs ih =>
    simp only [List.length_cons] at ha
    refine ih _ _ (fun c hc => ?_) (by omega)
    rcases mem_write m a b c hc with hc | hc
    · omega
    · exact h c hc

/-- Everything MemWrite can do. -/
theorem memWrite_ok (s s' : State) (addr : Nat) (a : List Byte) :
    memWrite s addr a = .ok s' ↔
      addr + a.length ≤ s.cfg.space ∧ s' = { s with bm := Memory.writeBytes s.bm addr a } := by
  unfold memWrite
  split_ifs with h <;> simp [h, eq_comm]

/-- Everything MemRead can do. -/
theorem memRead_ok (s : State) (addr k : Nat) (a : List Byte) :
    memRead s addr k = .ok a ↔
      addr + k ≤ s.cfg.space ∧ a = (List.range k).map fun j => Memory.byteAt s.bm (addr + j) := by
  unfold memRead
  split_ifs with h <;> simp [h, eq_comm]

/-- The state after reset has its memory in the canonical form. -/
theorem reset_memory_wf : Memory.wf State.reset.bm := rfl

end Sys2Proof.Machine
end

