-- ==== Sys2Proof/Laws/State.lean ====
section
/-! SUPPORT. One lemma per field per update of the state, and the ports of a response. -/

namespace Sys2Proof.Machine

section respond
variable (s : State) (r : Response)
@[simp] theorem respond_cfg : (s.respond r).cfg = s.cfg := rfl
@[simp] theorem respond_bm : (s.respond r).bm = s.bm := rfl
@[simp] theorem respond_ports : (s.respond r).ports = s.ports := rfl
@[simp] theorem respond_pending : (s.respond r).pending = s.pending := rfl
@[simp] theorem respond_responses : (s.respond r).responses = s.responses ++ [r] := rfl
end respond

section present
variable (s : State) (r : Request) (rest : List HostAction)
@[simp] theorem present_cfg : (s.present r rest).cfg = s.cfg := rfl
@[simp] theorem present_bm : (s.present r rest).bm = s.bm := rfl
@[simp] theorem present_ports : (s.present r rest).ports = r := rfl
@[simp] theorem present_pending : (s.present r rest).pending = rest := rfl
@[simp] theorem present_responses : (s.present r rest).responses = s.responses := rfl
end present

section setMemory
variable (s : State) (m : Memory)
@[simp] theorem setBm_cfg : ({ s with bm := m } : State).cfg = s.cfg := rfl
@[simp] theorem setBm_bm : ({ s with bm := m } : State).bm = m := rfl
@[simp] theorem setBm_ports : ({ s with bm := m } : State).ports = s.ports := rfl
@[simp] theorem setBm_pending : ({ s with bm := m } : State).pending = s.pending := rfl
@[simp] theorem setBm_responses : ({ s with bm := m } : State).responses = s.responses := rfl
end setMemory

section setPending
variable (s : State) (p : List HostAction)
@[simp] theorem setPending_cfg : ({ s with pending := p } : State).cfg = s.cfg := rfl
@[simp] theorem setPending_bm : ({ s with pending := p } : State).bm = s.bm := rfl
@[simp] theorem setPending_ports : ({ s with pending := p } : State).ports = s.ports := rfl
@[simp] theorem setPending_pending : ({ s with pending := p } : State).pending = p := rfl
@[simp] theorem setPending_responses : ({ s with pending := p } : State).responses = s.responses := rfl
end setPending

section operands
variable (s : State) (r : Response) (t : NType) (k : Nat)
@[simp] theorem valOperand_respond : valOperand t (s.respond r) = valOperand t s := rfl
@[simp] theorem byteOperand_respond : byteOperand k (s.respond r) = byteOperand k s := rfl
end operands

end Sys2Proof.Machine
end

