-- ==== Sys2Proof/Laws/Ops.lean ====
section
/-! SUPPORT. What each shared operation can answer, said once. -/

namespace Sys2Proof.Machine

theorem widthIn_iff (limit N : Nat) : widthIn limit N = true ↔ 1 ≤ N ∧ N ≤ limit := by
  simp [widthIn]

theorem guardWidth_of_in (limit : Nat) (n : BitVec 7) (s : State) (k : Result)
    (h : 1 ≤ n.toNat ∧ n.toNat ≤ limit) : guardWidth limit n s k = k :=
  if_pos ((widthIn_iff _ _).2 h)

theorem guardWidth_of_out (limit : Nat) (n : BitVec 7) (s : State) (k : Result)
    (h : ¬(1 ≤ n.toNat ∧ n.toNat ≤ limit)) :
    guardWidth limit n s k = .refused (.illegal .widthRange) :=
  if_neg (mt (widthIn_iff _ _).1 h)

theorem guardWidth_next (limit : Nat) (n : BitVec 7) (s t : State) (k : Result) :
    guardWidth limit n s k = .next t ↔ (1 ≤ n.toNat ∧ n.toNat ≤ limit) ∧ k = .next t := by
  by_cases h : 1 ≤ n.toNat ∧ n.toNat ≤ limit
  · simp [guardWidth_of_in limit n s k h, h]
  · simp [guardWidth_of_out limit n s k h, h]

theorem guardSlice_of_in (s : State) (k : Result) (h : s.ports.addr + s.ports.len ≤ s.cfg.space) :
    guardSlice s k = k := if_pos h

theorem guardSlice_of_out (s : State) (k : Result) (h : s.cfg.space < s.ports.addr + s.ports.len) :
    guardSlice s k = .refused (.illegal .sliceWrap) := if_neg (by omega)

theorem guardSlice_next (s t : State) (k : Result) :
    guardSlice s k = .next t ↔ s.ports.addr + s.ports.len ≤ s.cfg.space ∧ k = .next t := by
  by_cases h : s.ports.addr + s.ports.len ≤ s.cfg.space
  · simp [guardSlice_of_in s k h, h]
  · simp [guardSlice_of_out s k (by omega), h]

section lengths
variable (W N : Nat)

@[simp] theorem nativeToMsb_length (v : BitVec W) : (nativeToMsb W v).length = W / 8 := by
  simp [nativeToMsb]

@[simp] theorem nativeToLsb_length (v : BitVec W) : (nativeToLsb W v).length = W / 8 := by
  simp [nativeToLsb]

/-- The MSB bytes of a width that fits are `B` in number. -/
theorem svToMsb_length (v : BitVec W) (h : bytesFor N ≤ W / 8) :
    (svToMsb W N v).length = bytesFor N := by
  simp only [svToMsb, List.length_drop, nativeToMsb_length]; omega

/-- The LSB bytes of a width that fits are `B` in number. -/
theorem svToLsb_length (v : BitVec W) (h : bytesFor N ≤ W / 8) :
    (svToLsb W N v).length = bytesFor N := by
  simp only [svToLsb, List.length_take, nativeToLsb_length]; omega

end lengths

/-- A declared width that fits the native type needs no more bytes than it has, and 1 to 8. -/
theorem bytesFor_fits (t : NType) (N : Nat) (h : 1 ≤ N ∧ N ≤ t.width) :
    1 ≤ bytesFor N ∧ bytesFor N ≤ t.width / 8 ∧ bytesFor N ≤ 8 := by
  unfold bytesFor
  cases t <;> simp only [NType.width] at h ⊢ <;> omega

/-- A lane of a byte-array result. -/
theorem lanesOf_getElem (a : List Byte) (j : Nat) (h : j < 8) : (lanesOf a)[j] = a.getD j 0 := by
  unfold lanesOf
  interval_cases j <;> rfl

/-- Everything a pack to a slice can answer. -/
theorem packSlice_next (f : (W N : Nat) → BitVec W → List Byte) (t : NType) (n : BitVec 7)
    (s s' : State) :
    packSlice f t n s = .next s' ↔
      (1 ≤ n.toNat ∧ n.toNat ≤ t.width) ∧ s.ports.addr + s.ports.len ≤ s.cfg.space ∧
      ((s.ports.len ≠ bytesFor n.toNat ∧
          s' = s.respond (.bufferSizeMismatch (bytesFor n.toNat) s.ports.len)) ∨
        (s.ports.len = bytesFor n.toNat ∧
          s.ports.addr + (f t.width n.toNat (sizedOperand t n s)).length ≤ s.cfg.space ∧
          s' = State.respond { s with bm := (Memory.writeBytes s.bm s.ports.addr
            (f t.width n.toNat (sizedOperand t n s))) } (.ok .nothing))) := by
  unfold packSlice
  rw [guardWidth_next, guardSlice_next]
  refine and_congr_right fun _ => and_congr_right fun _ => ?_
  by_cases h : s.ports.len = bytesFor n.toNat
  · rw [if_neg (by simpa using h)]
    unfold memWrite
    split_ifs with hw <;> simp [h, hw, respondDone, eq_comm]
  · rw [if_pos h]
    simp [h, raiseMismatch, eq_comm]

/-- Everything an unpack from a slice can answer. -/
theorem unpackSlice_next (f : (W N : Nat) → List Byte → BitVec W) (t : NType) (n : BitVec 7)
    (s s' : State) :
    unpackSlice f t n s = .next s' ↔
      (1 ≤ n.toNat ∧ n.toNat ≤ t.width) ∧ s.ports.addr + s.ports.len ≤ s.cfg.space ∧
      ((s.ports.len < bytesFor n.toNat ∧
          s' = s.respond (.bufferSizeMismatch (bytesFor n.toNat) s.ports.len)) ∨
        (bytesFor n.toNat ≤ s.ports.len ∧
          s' = s.respond (.ok (.value ((f t.width n.toNat
            ((List.range (bytesFor n.toNat)).map fun j =>
              Memory.byteAt s.bm (s.ports.addr + j))).setWidth 64))))) := by
  unfold unpackSlice
  rw [guardWidth_next, guardSlice_next]
  refine and_congr_right fun _ => and_congr_right fun hs => ?_
  by_cases h : s.ports.len < bytesFor n.toNat
  · rw [if_pos h]
    simp [h, raiseMismatch, eq_comm]
  · rw [if_neg h]
    have hr : s.ports.addr + bytesFor n.toNat ≤ s.cfg.space := by omega
    unfold memRead
    rw [if_pos hr]
    simp [h, respondValue, eq_comm, Nat.not_lt.1 h]

end Sys2Proof.Machine
end

