-- ==== Sys2Proof/Laws/Bytes.lean ====
section
/-! SUPPORT. The reference functions of spec 00 section 7 bit by bit: which bit of the operand each bit
of the result is. -/

namespace Sys2Proof.Machine

/-! ### Bytes of a value -/

theorem nativeToLsb_bit (W : Nat) (v : BitVec W) (i b : Nat) (hi : i < W / 8) (hb : b < 8) :
    ((nativeToLsb W v).getD i 0).getLsbD b = v.getLsbD (8 * i + b) := by
  simp [nativeToLsb, List.getD_eq_getElem?_getD, hi, hb]

theorem nativeToMsb_bit (W : Nat) (v : BitVec W) (i b : Nat) (hi : i < W / 8) (hb : b < 8) :
    ((nativeToMsb W v).getD i 0).getLsbD b = v.getLsbD (W - 8 * (i + 1) + b) := by
  simp [nativeToMsb, List.getD_eq_getElem?_getD, hi, hb]

/-! ### The value of bytes -/

/-- A bit of an OR over a list is the bit of some entry. -/
theorem orFold_bit {W : Nat} (f : Nat → BitVec W) (l : List Nat) (v : BitVec W) (b : Nat) :
    (l.foldl (fun v i => v ||| f i) v).getLsbD b = (v.getLsbD b || l.any fun i => (f i).getLsbD b) := by
  induction l generalizing v with
  | nil => simp
  | cons i l ih => simp [ih, Bool.or_assoc]

/-- A byte moved to the slice at `s` has its bits there and nowhere else. -/
theorem shiftedByte_bit (W : Nat) (x : Byte) (s b : Nat) (hb : b < W) :
    ((x.setWidth W) <<< s).getLsbD b = (decide (s ≤ b ∧ b < s + 8) && x.getLsbD (b - s)) := by
  rw [BitVec.getLsbD_shiftLeft, BitVec.getLsbD_setWidth]
  by_cases h : s ≤ b
  · by_cases h' : b < s + 8
    · simp [h, h', hb, show ¬ b < s by omega, show b - s < W by omega]
    · simp [h, h', hb, BitVec.getLsbD_of_ge x (b - s) (by omega)]
  · simp [h, show b < s by omega]

theorem nativeFromLsb_bit (W : Nat) (a : List Byte) (b : Nat) (h8 : W % 8 = 0) (hb : b < W) :
    (nativeFromLsb W a).getLsbD b = (a.getD (b / 8) 0).getLsbD (b % 8) := by
  rw [nativeFromLsb, orFold_bit, Bool.eq_iff_iff]
  simp only [BitVec.ofNat_eq_ofNat, BitVec.getLsbD_zero, Bool.false_or, List.any_eq_true,
    List.mem_range, shiftedByte_bit W _ _ b hb, Bool.and_eq_true, decide_eq_true_eq]
  constructor
  · rintro ⟨i, -, hi, hx⟩
    rwa [show b / 8 = i by omega, show b % 8 = b - 8 * i by omega]
  · exact fun hx => ⟨b / 8, by omega, by omega, by rwa [show b - 8 * (b / 8) = b % 8 by omega]⟩

theorem nativeFromMsb_bit (W : Nat) (a : List Byte) (b : Nat) (h8 : W % 8 = 0) (hb : b < W) :
    (nativeFromMsb W a).getLsbD b = (a.getD (W / 8 - 1 - b / 8) 0).getLsbD (b % 8) := by
  rw [nativeFromMsb, orFold_bit, Bool.eq_iff_iff]
  simp only [BitVec.ofNat_eq_ofNat, BitVec.getLsbD_zero, Bool.false_or, List.any_eq_true,
    List.mem_range, shiftedByte_bit W _ _ b hb, Bool.and_eq_true, decide_eq_true_eq]
  constructor
  · rintro ⟨i, hi', hi, hx⟩
    rwa [show W / 8 - 1 - b / 8 = i by omega, show b % 8 = b - (W - 8 * (i + 1)) by omega]
  · refine fun hx => ⟨W / 8 - 1 - b / 8, by omega, by omega, ?_⟩
    rwa [show b - (W - 8 * (W / 8 - 1 - b / 8 + 1)) = b % 8 by omega]

/-! ### Masks -/

theorem mask64_bit (N i : Nat) (hi : i < 64) : (mask64 N).getLsbD i = decide (i < N) := by
  unfold mask64
  split_ifs with h0 h1
  · simp [h0]
  · rw [BitVec.getLsbD_ofNat, Nat.testBit_two_pow_sub_one]; simp [hi]
  · rw [BitVec.getLsbD_allOnes, decide_eq_true hi, decide_eq_true (by omega : i < N)]

theorem maskW_bit (W N i : Nat) (hW : W ≤ 64) (hi : i < W) :
    (maskW W N).getLsbD i = decide (i < N) := by
  rw [maskW, BitVec.getLsbD_setWidth, mask64_bit N i (by omega)]; simp [hi]

theorem fromPrimitive_bit (W N : Nat) (v : BitVec W) (i : Nat) (hW : W ≤ 64) :
    (fromPrimitive W N v).getLsbD i = (decide (i < N) && v.getLsbD i) := by
  by_cases hi : i < W
  · rw [fromPrimitive, BitVec.getLsbD_and, maskW_bit W N i hW hi, Bool.and_comm]
  · rw [BitVec.getLsbD_of_ge _ i (by omega), BitVec.getLsbD_of_ge v i (by omega), Bool.and_false]

/-! ### Minimal-length functions -/

theorem svFromLsb_bit (W N : Nat) (a : List Byte) (b : Nat) (h8 : W % 8 = 0) (hW : W ≤ 64)
    (ha : a.length = bytesFor N) (hb : b < W) :
    (svFromLsb W N a).getLsbD b = (decide (b < N) && (a.getD (b / 8) 0).getLsbD (b % 8)) := by
  rw [svFromLsb, fromPrimitive_bit _ _ _ _ hW, nativeFromLsb_bit _ _ _ h8 hb]
  by_cases h : b < N
  · have : b / 8 < a.length := by rw [ha]; unfold bytesFor; omega
    rw [List.getD_append _ _ _ _ this]
  · simp [h]

section minimal
variable (W N : Nat) (hB : bytesFor N ≤ W / 8)
include hB

theorem svToLsb_bit (v : BitVec W) (j b : Nat) (hj : j < bytesFor N) (hb : b < 8) :
    ((svToLsb W N v).getD j 0).getLsbD b = v.getLsbD (8 * j + b) := by
  rw [← nativeToLsb_bit W v j b (by omega) hb, svToLsb, List.getD_eq_getElem?_getD,
    List.getElem?_take_of_lt hj, ← List.getD_eq_getElem?_getD]

theorem svToMsb_bit (v : BitVec W) (j b : Nat) (h8 : W % 8 = 0) (hj : j < bytesFor N) (hb : b < 8) :
    ((svToMsb W N v).getD j 0).getLsbD b = v.getLsbD (8 * (bytesFor N - j - 1) + b) := by
  have h := nativeToMsb_bit W v (W / 8 - bytesFor N + j) b (by omega) hb
  rw [show W - 8 * (W / 8 - bytesFor N + j + 1) = 8 * (bytesFor N - j - 1) by omega] at h
  rw [← h, svToMsb, List.getD_eq_getElem?_getD, List.getElem?_drop, ← List.getD_eq_getElem?_getD]

theorem svFromMsb_bit (a : List Byte) (b : Nat) (h8 : W % 8 = 0) (hW : W ≤ 64)
    (hb : b < W) :
    (svFromMsb W N a).getLsbD b =
      (decide (b < N) && (a.getD (bytesFor N - 1 - b / 8) 0).getLsbD (b % 8)) := by
  rw [svFromMsb, fromPrimitive_bit _ _ _ _ hW, nativeFromMsb_bit _ _ _ h8 hb]
  by_cases h : b < N
  · have hb' : b / 8 + 1 ≤ bytesFor N := by unfold bytesFor; omega
    rw [List.getD_append_right _ _ _ _ (by simp only [List.length_replicate]; omega),
      List.length_replicate,
      show W / 8 - 1 - b / 8 - (W / 8 - bytesFor N) = bytesFor N - 1 - b / 8 by omega]
  · simp [h]

end minimal

end Sys2Proof.Machine
end

