-- ==== Sys2Proof/Laws/Exec.lean ====
section
/-! SUPPORT. What a command and a step can answer, said once. -/

namespace Sys2Proof.Machine

/-- A command whose width is outside its range is refused (spec 30 R79, R81 (f)). -/
theorem exec_of_not_wf (i : Instr) (s : State) (h : i.wf = false) :
    exec i s = .refused (.illegal .widthRange) := by
  cases i <;> simp only [Instr.wf, Bool.and_eq_false_iff, decide_eq_false_iff_not, reduceCtorEq] at h <;>
    exact guardWidth_of_out _ _ _ _ (by omega)

/-- Everything a command's next state can be: the state with one response added, and, for a pack to a
slice that answers `Ok`, its bytes written. -/
theorem exec_next (i : Instr) (s t : State) (h : exec i s = .next t) :
    (∃ r, t = s.respond r) ∨
    (∃ ty n f, (i = .packsm ty n ∧ f = svToMsb ∨ i = .packsl ty n ∧ f = svToLsb) ∧
      s.ports.len = bytesFor n.toNat ∧ s.ports.addr + s.ports.len ≤ s.cfg.space ∧
      t = State.respond { s with bm := (Memory.writeBytes s.bm s.ports.addr
        (f ty.width n.toNat (sizedOperand ty n s))) } (.ok .nothing)) := by
  cases i
  case packsm ty n =>
    obtain ⟨-, hs, ⟨-, rfl⟩ | ⟨hl, -, rfl⟩⟩ := (packSlice_next _ _ _ _ _).1 h
    · exact .inl ⟨_, rfl⟩
    · exact .inr ⟨ty, n, _, .inl ⟨rfl, rfl⟩, hl, hs, rfl⟩
  case packsl ty n =>
    obtain ⟨-, hs, ⟨-, rfl⟩ | ⟨hl, -, rfl⟩⟩ := (packSlice_next _ _ _ _ _).1 h
    · exact .inl ⟨_, rfl⟩
    · exact .inr ⟨ty, n, _, .inr ⟨rfl, rfl⟩, hl, hs, rfl⟩
  case unpksm =>
    obtain ⟨-, -, ⟨-, rfl⟩ | ⟨-, rfl⟩⟩ := (unpackSlice_next _ _ _ _ _).1 h <;> exact .inl ⟨_, rfl⟩
  case unpksl =>
    obtain ⟨-, -, ⟨-, rfl⟩ | ⟨-, rfl⟩⟩ := (unpackSlice_next _ _ _ _ _).1 h <;> exact .inl ⟨_, rfl⟩
  all_goals
    first
    | (injection h with h; exact .inl ⟨_, h.symm⟩)
    | (obtain ⟨-, h⟩ := (guardWidth_next _ _ _ _ _).1 h; injection h with h; exact .inl ⟨_, h.symm⟩)

/-- A step at a pending request is that request's transaction. -/
theorem step_command (s : State) (r : Request) (rest : List HostAction)
    (h : s.pending = .command r :: rest) : step s = transaction (s.present r rest) := by
  rw [step, h]

end Sys2Proof.Machine
end

