-- ==== Sys2Proof/Laws/PerInstr.lean ====
section
/-! SUPPORT. Per command: its word selects its own row of the opcode table, `(w & mask) = match` (spec 30 R77). -/

namespace Sys2Proof.Laws.RowMatch

/-- The encoded word selects the command's row (30 R77). -/
def Statement (i : Instr) : Prop := encode i &&& i.op.format.rowMask = i.op.rowMatch

theorem nbytes (n : BitVec 7) : Statement (.nbytes n) := by revert n; unfold Statement; decide
theorem bitw (n : BitVec 7) : Statement (.bitw n) := by revert n; unfold Statement; decide
theorem mask (n : BitVec 7) : Statement (.mask n) := by revert n; unfold Statement; decide
theorem ntom (t : NType) : Statement (.ntom t) := by unfold Statement; cases t <;> decide
theorem ntol (t : NType) : Statement (.ntol t) := by unfold Statement; cases t <;> decide
theorem mton (t : NType) : Statement (.mton t) := by unfold Statement; cases t <;> decide
theorem lton (t : NType) : Statement (.lton t) := by unfold Statement; cases t <;> decide

/-- Any word with OP and T fixed, whatever its width field, masked to OP and the reserved bits. -/
theorem typed (op : BitVec 8) (c : BitVec 4) (n : BitVec 7) :
    assembleWord op c n &&& Format.rowMask .TN = op.setWidth 32 := by
  have h : ∀ n : BitVec 7, n.setWidth 32 <<< 12 &&& Format.rowMask .TN = 0 := by decide
  have hc : ∀ c : BitVec 4, c.setWidth 32 <<< 8 &&& Format.rowMask .TN = 0 := by decide
  have ho : ∀ o : BitVec 8, o.setWidth 32 &&& Format.rowMask .TN = o.setWidth 32 := by decide
  have and_or (a b m : BitVec 32) : (a ||| b) &&& m = (a &&& m) ||| (b &&& m) := by
    rw [BitVec.and_comm, BitVec.and_or_distrib_left, BitVec.and_comm m, BitVec.and_comm m]
  rw [assembleWord, and_or, and_or, h, hc, ho]
  simp

theorem vmask (t : NType) (n : BitVec 7) : Statement (.vmask t n) := typed _ _ _
theorem fromp (t : NType) (n : BitVec 7) : Statement (.fromp t n) := typed _ _ _
theorem packm (t : NType) (n : BitVec 7) : Statement (.packm t n) := typed _ _ _
theorem packl (t : NType) (n : BitVec 7) : Statement (.packl t n) := typed _ _ _
theorem unpkm (t : NType) (n : BitVec 7) : Statement (.unpkm t n) := typed _ _ _
theorem unpkl (t : NType) (n : BitVec 7) : Statement (.unpkl t n) := typed _ _ _
theorem packsm (t : NType) (n : BitVec 7) : Statement (.packsm t n) := typed _ _ _
theorem packsl (t : NType) (n : BitVec 7) : Statement (.packsl t n) := typed _ _ _
theorem unpksm (t : NType) (n : BitVec 7) : Statement (.unpksm t n) := typed _ _ _
theorem unpksl (t : NType) (n : BitVec 7) : Statement (.unpksl t n) := typed _ _ _

end Sys2Proof.Laws.RowMatch
end

