-- ==== Sys2Proof/Tests/Slice0.lean ====
section
/-! SUPPORT. The model's own tests. Expected results are those of spec 95 (its vector numbers stand in the
comments) or are worked out by hand from the rule named; the witnesses at the end show that the
hypotheses of the statements can be met. -/

namespace Sys2Proof.Tests
open Sys2Proof.Machine Sys2Proof.Claims

/-! ### Helpers -/

/-- Bytes of buffer memory from an address up. -/
def cells : Nat → List Nat → Memory
  | _, [] => []
  | a, b :: bs => (a, BitVec.ofNat 8 b) :: cells (a + 1) bs

/-- A unit with ABITS = 32, this buffer memory, and one request to answer. -/
def unit (bm : Memory) (r : Request) : State :=
  ⟨Config.suggested, bm, Request.zero, [.command r], []⟩

/-- The request a line of source assembles to. -/
def requestOf (line : String) : Option Request :=
  match readLine line.toList with
  | some (.line l) => assemble Config.suggested l
  | some (.swap _ _) | none => none

/-- The command word of a line. -/
def wordOfLine (line : String) : Option CommandWord := (requestOf line).map (·.cw)

/-- One step on a line: the text of the response and buffer memory after it. -/
def run (bm : Memory) (line : String) : Option (String × Memory) :=
  match requestOf line with
  | none => none
  | some r =>
    match step (unit bm r) with
    | .next t => t.responses.head?.map fun resp => (String.ofList resp.text, t.bm)
    | .fault _ | .refused _ => none

/-- Why a request with this word is refused. -/
def refusalOf (cw : CommandWord) (addr len : Nat) : Option Refusal :=
  match step (unit [] ⟨cw, 0, Request.zero.bytes, addr, len⟩) with
  | .refused why => some why
  | .next _ | .fault _ => none

/-! ### WellFormed: an ill-formed term for each check (30 R79) -/

theorem test_wf_nbytes : (Instr.nbytes 0).wf = false ∧ (Instr.nbytes 65).wf = false := by decide
theorem test_wf_bitw : (Instr.bitw 0).wf = false ∧ (Instr.bitw 65).wf = false := by decide
theorem test_wf_vmask : (Instr.vmask .u8 0).wf = false ∧ (Instr.vmask .u8 9).wf = false := by decide
theorem test_wf_fromp : (Instr.fromp .f32 0).wf = false ∧ (Instr.fromp .f32 33).wf = false := by decide
theorem test_wf_packm : (Instr.packm .u16 0).wf = false ∧ (Instr.packm .u16 17).wf = false := by decide
theorem test_wf_packl : (Instr.packl .i8 0).wf = false ∧ (Instr.packl .i8 9).wf = false := by decide
theorem test_wf_unpkm : (Instr.unpkm .u16 0).wf = false ∧ (Instr.unpkm .u16 17).wf = false := by decide
theorem test_wf_unpkl : (Instr.unpkl .f64 0).wf = false ∧ (Instr.unpkl .f64 65).wf = false := by decide
theorem test_wf_packsm : (Instr.packsm .u64 0).wf = false ∧ (Instr.packsm .u64 65).wf = false := by decide
theorem test_wf_packsl : (Instr.packsl .i32 0).wf = false ∧ (Instr.packsl .i32 33).wf = false := by decide
theorem test_wf_unpksm : (Instr.unpksm .u8 0).wf = false ∧ (Instr.unpksm .u8 9).wf = false := by decide
theorem test_wf_unpksl : (Instr.unpksl .i64 0).wf = false ∧ (Instr.unpksl .i64 65).wf = false := by decide
theorem test_wf_ends : (Instr.mask 0).wf = true ∧ (Instr.mask 127).wf = true ∧
    (Instr.nbytes 1).wf = true ∧ (Instr.nbytes 64).wf = true ∧ (Instr.packm .u16 16).wf = true := by decide

/-! ### Decoding: words written bit by bit from 30 R70 as ZERO ++ N ++ T ++ OP -/

/-- The four fields side by side, highest first. -/
def bits (zero : BitVec 13) (n : BitVec 7) (t : BitVec 4) (op : BitVec 8) : CommandWord :=
  zero ++ n ++ t ++ op

theorem test_decode_nbytes : decode (bits 0 0b0001010 0b0000 0b00000000) = .ok (.nbytes 10) := by decide
theorem test_decode_bitw : decode (bits 0 0b1000000 0b0000 0b00000001) = .ok (.bitw 64) := by decide
theorem test_decode_mask : decode (bits 0 0b0000000 0b0000 0b00000010) = .ok (.mask 0) := by decide
theorem test_decode_vmask : decode (bits 0 0b0110100 0b1011 0b00000011) = .ok (.vmask .f64 52) := by decide
theorem test_decode_fromp : decode (bits 0 0b0011111 0b1010 0b00000100) = .ok (.fromp .f32 31) := by decide
theorem test_decode_ntom : decode (bits 0 0b0000000 0b0001 0b00010000) = .ok (.ntom .u16) := by decide
theorem test_decode_ntol : decode (bits 0 0b0000000 0b0011 0b00010001) = .ok (.ntol .u64) := by decide
theorem test_decode_mton : decode (bits 0 0b0000000 0b0100 0b00010010) = .ok (.mton .i8) := by decide
theorem test_decode_lton : decode (bits 0 0b0000000 0b0111 0b00010011) = .ok (.lton .i64) := by decide
theorem test_decode_packm : decode (bits 0 0b0011000 0b0010 0b00100000) = .ok (.packm .u32 24) := by decide
theorem test_decode_packl : decode (bits 0 0b0001100 0b0101 0b00100001) = .ok (.packl .i16 12) := by decide
theorem test_decode_unpkm : decode (bits 0 0b0001010 0b0001 0b00100010) = .ok (.unpkm .u16 10) := by decide
theorem test_decode_unpkl : decode (bits 0 0b0100000 0b0110 0b00100011) = .ok (.unpkl .i32 32) := by decide
theorem test_decode_packsm : decode (bits 0 0b0000001 0b0000 0b00110000) = .ok (.packsm .u8 1) := by decide
theorem test_decode_packsl : decode (bits 0 0b0111001 0b0011 0b00110001) = .ok (.packsl .u64 57) := by decide
theorem test_decode_unpksm : decode (bits 0 0b0100000 0b0010 0b00110010) = .ok (.unpksm .u32 32) := by decide
theorem test_decode_unpksl : decode (bits 0 0b0001000 0b0000 0b00110011) = .ok (.unpksl .u8 8) := by decide

/-- The words of spec 95: V-W-5, V-MK-36, V-FP-31, V-PK-26, V-SL-17. -/
theorem test_words : encode (.nbytes 10) = 0x0000A000 ∧ encode (.vmask .f64 52) = 0x00034B03 ∧
    encode (.lton .f64) = 0x00000B13 ∧ encode (.packm .i16 12) = 0x0000C520 ∧
    encode (.packsl .u64 57) = 0x00039331 := by decide

/-- The host's table word for NTOM.u8 and MASK 0 are legal, for NBYTES 0 illegal (V-ILL-10). -/
theorem test_table_words : decodeTableWord 32 0x10 = some (.ntom .u8) ∧
    decodeTableWord 32 0x02 = some (.mask 0) ∧ decodeTableWord 32 0x00 = none := by decide

/-! ### Refused words: V-ILL-1, 4, 5, 8, 11, 13, 15, 19, 22, 23, 24, 25 -/

theorem test_illegal_opcode : refusalOf 0x00000005 0 0 = some (.illegal .opcode) := by decide
theorem test_illegal_reserved_bits : refusalOf 0x00088220 0 0 = some (.illegal .reservedBits) ∧
    refusalOf 0x80000000 0 0 = some (.illegal .reservedBits) := by decide
theorem test_illegal_type_not_zero : refusalOf 0x0000A100 0 0 = some (.illegal .typeNotZero) := by decide
theorem test_illegal_reserved_type : refusalOf 0x00008820 0 0 = some (.illegal .reservedType) := by decide
theorem test_illegal_width_not_zero : refusalOf 0x00008210 0 0 = some (.illegal .widthNotZero) := by decide
theorem test_illegal_width_range : refusalOf 0x00009020 0 0 = some (.illegal .widthRange) ∧
    refusalOf 0x00000220 0 0 = some (.illegal .widthRange) ∧
    refusalOf 0x00041000 0 0 = some (.illegal .widthRange) := by decide
theorem test_illegal_wrap : refusalOf 0x00010130 0xFFFFFFFF 2 = some (.illegal .sliceWrap) ∧
    refusalOf 0x00008033 2 0xFFFFFFFF = some (.illegal .sliceWrap) ∧
    refusalOf 0x00010130 0xFFFFFFFF 3 = some (.illegal .sliceWrap) := by decide

/-- 60 R203: the unit's own answer to an illegal request (95 P5, step 2). -/
theorem test_illegal_answer : (transact Config.suggested (cells 0 [0x11])
    ⟨0x00009020, 0x1FF, Request.zero.bytes, 0, 0⟩) = (cells 0 [0x11], .illegal) := by decide

/-! ### One step of each command, in the text of 30 R82 -/

/-- V-W-4, V-W-21 -/
theorem test_nbytes : run [] "NBYTES 9" = some ("Ok val=0x2", []) ∧
    run [] "NBYTES 64" = some ("Ok val=0x8", []) := by decide
/-- V-W-24 -/
theorem test_bitw : run [] "BITW 24" = some ("Ok val=0x18", []) := by decide
/-- V-MK-1, V-MK-16, V-MK-20 -/
theorem test_mask : run [] "MASK 0" = some ("Ok val=0x0", []) ∧
    run [] "MASK 63" = some ("Ok val=0x7FFFFFFFFFFFFFFF", []) ∧
    run [] "MASK 127" = some ("Ok val=0xFFFFFFFFFFFFFFFF", []) := by decide
/-- V-MK-26, V-MK-35 -/
theorem test_vmask : run [] "VMASK.i16 10" = some ("Ok val=0x3FF", []) ∧
    run [] "VMASK.i64 64" = some ("Ok val=0xFFFFFFFFFFFFFFFF", []) := by decide
/-- V-PK-9, V-FP-20 -/
theorem test_fromp : run [] "FROMP.u32 24, 0xDDCCBBAA" = some ("Ok val=0xCCBBAA", []) ∧
    run [] "FROMP.f32 31, 0xBFC00000" = some ("Ok val=0x3FC00000", []) := by decide
/-- V-N-13, V-N-41 -/
theorem test_ntom : run [] "NTOM.u64 0x123456789ABCDEF" =
      some ("Ok bytes=[01 23 45 67 89 AB CD EF]", []) ∧
    run [] "NTOM.u16 0xDEADBEEF00001234" = some ("Ok bytes=[12 34]", []) := by decide
/-- V-N-10 -/
theorem test_ntol : run [] "NTOL.u32 0xAABBCCDD" = some ("Ok bytes=[DD CC BB AA]", []) := by decide
/-- V-N-23 -/
theorem test_mton : run [] "MTON.i16 [FF FE]" = some ("Ok val=0xFFFE", []) := by decide
/-- V-N-42: the lanes above are ignored -/
theorem test_mton_lanes : (transact Config.suggested []
    ⟨0x00000112, 0, #v[0x12, 0x34, 0xFF, 0xFF, 0xFF, 0xFF, 0xFF, 0xFF], 0, 0⟩).2.rval =
      some 0x1234 := by decide
/-- V-N-16, V-FP-31 -/
theorem test_lton : run [] "LTON.u64 [01 23 45 67 89 AB CD EF]" =
      some ("Ok val=0xEFCDAB8967452301", []) ∧
    run [] "LTON.f64 [00 00 00 00 00 00 F0 3F]" = some ("Ok val=0x3FF0000000000000", []) := by decide
/-- S1, V-PK-21 -/
theorem test_packm : run [] "PACKM.u32 24, 0x00CCBBAA" = some ("Ok bytes=[CC BB AA]", []) ∧
    run [] "PACKM.u64 57, 0xFFFFFFFFFFFFFFFF" =
      some ("Ok bytes=[01 FF FF FF FF FF FF FF]", []) := by decide
/-- V-PK-13, V-PK-26 -/
theorem test_packl : run [] "PACKL.u32 17, 0x12345678" = some ("Ok bytes=[78 56 00]", []) ∧
    run [] "PACKL.i16 12, 0x8001" = some ("Ok bytes=[01 00]", []) := by decide
/-- S2, and its padding bits set: the six high bits of 0xFE are discarded (42 R155) -/
theorem test_unpkm : run [] "UNPKM.u16 10, [02 AA]" = some ("Ok val=0x2AA", []) ∧
    run [] "UNPKM.u16 10, [FE AA]" = some ("Ok val=0x2AA", []) := by decide
/-- V-FP-27 -/
theorem test_unpkl : run [] "UNPKL.f32 16, [3F 80]" = some ("Ok val=0x803F", []) := by decide
/-- V-SL-6, V-SL-19 -/
theorem test_packsm :
    run (cells 0x101 [0x55, 0x55, 0x55]) "PACKSM.u16 10, 0xFEAA, 0x101, 2" =
      some ("Ok", cells 0x101 [0x02, 0xAA, 0x55]) ∧
    run [] "PACKSM.u16 16, 0x1234, 0xFFFFFFFE, 2" = some ("Ok", cells 0xFFFFFFFE [0x12, 0x34]) := by decide
/-- S6: the wrong size -/
theorem test_packsm_mismatch : run [] "PACKSM.u32 24, 0x00CCBBAA, 0x100, 4" =
    some ("BufferSizeMismatch expected=3 actual=4", []) := by decide
/-- V-SL-7, V-SL-17 -/
theorem test_packsl :
    run (cells 0x101 [0x55, 0x55, 0x55]) "PACKSL.u16 10, 0xFEAA, 0x101, 2" =
      some ("Ok", cells 0x101 [0xAA, 0x02, 0x55]) ∧
    run [] "PACKSL.u64 57, 0xFFFFFFFFFFFFFFFF, 0x300, 8" =
      some ("Ok", cells 0x300 [0xFF, 0xFF, 0xFF, 0xFF, 0xFF, 0xFF, 0xFF, 0x01]) := by decide
/-- V-SL-5 -/
theorem test_packsl_mismatch : run [] "PACKSL.u32 24, 0xCCBBAA, 0x100, 0" =
    some ("BufferSizeMismatch expected=3 actual=0", []) := by decide
/-- V-SL-8 (S5), V-SL-14 -/
theorem test_unpksm :
    (run (cells 0x200 [0xAA, 0xBB, 0xCC, 0xDD, 0xEE]) "UNPKSM.u32 32, 0x200, 5").map (·.1) =
      some "Ok val=0xAABBCCDD" ∧
    (run (cells 0x200 [0xAA, 0xBB, 0xCC, 0xDD, 0xEE]) "UNPKSM.u16 10, 0x203, 2").map (·.1) =
      some "Ok val=0x1EE" := by decide
/-- V-SL-11 -/
theorem test_unpksm_mismatch : run [] "UNPKSM.u32 32, 0x200, 3" =
    some ("BufferSizeMismatch expected=4 actual=3", []) := by decide
/-- V-SL-9, V-SL-15 -/
theorem test_unpksl :
    (run (cells 0x200 [0xAA, 0xBB, 0xCC, 0xDD, 0xEE]) "UNPKSL.u32 32, 0x200, 5").map (·.1) =
      some "Ok val=0xDDCCBBAA" ∧
    (run (cells 0x200 [0xAA, 0xBB, 0xCC, 0xDD, 0xEE]) "UNPKSL.u16 10, 0x203, 0xFFFFFDFD").map (·.1) =
      some "Ok val=0x2DD" := by decide
/-- V-SL-12 -/
theorem test_unpksl_mismatch : run [] "UNPKSL.u32 32, 0x200, 0" =
    some ("BufferSizeMismatch expected=4 actual=0", []) := by decide

/-- An unpack of bytes nothing has written answers, with a free value (93 U4): it never stops. -/
theorem test_unwritten_bytes_answer : ∃ t, step (unit [] ⟨0x00008033, 0, Request.zero.bytes, 1, 1⟩) =
    .next t ∧ t.responses.length = 1 ∧ bytesWritten [] 1 1 = false := ⟨_, rfl, rfl, rfl⟩

/-! ### Host actions, memory, text -/

/-- 20 R40: the address space ends at 2^ABITS. -/
theorem test_store_outside : step ⟨⟨4⟩, [], Request.zero, [.store 16 0], []⟩ =
    .fault (.noSuchAddress 16) := rfl
theorem test_store_inside : step ⟨⟨4⟩, [(3, 1)], Request.zero, [.store 2 7], []⟩ =
    .next ⟨⟨4⟩, [(2, 7), (3, 1)], Request.zero, [], []⟩ := rfl
/-- 70 R230: reset leaves buffer memory. -/
theorem test_reset_keeps : step ⟨⟨4⟩, [(3, 1)], Request.zero, [.reset], []⟩ =
    .next ⟨⟨4⟩, [(3, 1)], Request.zero, [], []⟩ := rfl
/-- The word placed is the word run, as the first request after reset. -/
theorem test_fetch_word : step (State.reset.withFetchWord 32 0x00064002) =
    .next ⟨Config.suggested, [], ⟨0x00064002, 0, Request.zero.bytes, 0, 0⟩, [],
      [.ok (.value 0xFFFFFFFFFFFFFFFF)]⟩ := rfl
theorem test_memory_wf : Memory.wf (cells 0x100 [1, 2, 3]) = true ∧
    Memory.wf [(2, 0), (2, 1)] = false ∧ Memory.wf [(3, 0), (2, 1)] = false := by decide

/-- 30 R82: comment, blanks, binary, separated digits; V-PK-10's word. -/
theorem test_text_numbers : requestOf "  PACKM.u16 9 , 0b1111_1111_1111_1111 ; nine bits" =
    requestOf "PACKM.u16 9, 65535" ∧ wordOfLine "PACKM.u16 9, 0xFFFF" = some 0x00009120 := by decide
/-- 30 R84: the other spellings. -/
theorem test_text_pseudo : readLine "PACK.M.u16 10, 0x2AA".toList = readLine "PACKM.u16 10, 0x2AA".toList ∧
    wordOfLine "UNPACK.L.u16 10, [AA 02]" = some 0x0000A123 ∧
    readLine "SWAP.u32 0x11223344".toList = some (.swap .u32 0x11223344) := by decide
/-- 30 R82: a type where the format has none, a missing one, a byte list of the wrong length, a number
too wide for its field. -/
theorem test_text_refused : wordOfLine "MASK.u8 3" = none ∧ wordOfLine "NTOM 3" = none ∧
    wordOfLine "UNPKM.u16 10, [02]" = none ∧ wordOfLine "MASK 128" = none ∧
    wordOfLine "NTOM.u24 1" = none ∧ wordOfLine "MASK 0x3" = none ∧ wordOfLine "NTOM.u8 1_" = none := by
  decide
/-- 95 P1, the conversion on the ports alone: LTON of NTOM's bytes. -/
theorem test_swap : run [] "NTOM.u32 0x11223344" = some ("Ok bytes=[11 22 33 44]", []) ∧
    run [] "LTON.u32 [11 22 33 44]" = some ("Ok val=0x44332211", []) := by decide

/-! ### Witnesses: the hypotheses of each statement can be met -/

/-- Request ports with these values. -/
def ask (cw : CommandWord) (val : Word) (bytes : List Byte) (addr len : Nat) : Request :=
  ⟨cw, val, lanesOf bytes, addr, len⟩

/-- A unit with ABITS = 32 whose ports hold a request, for a direct use of `exec`. -/
def atPorts (bm : Memory) (val : Word) (bytes : List Byte) (addr len : Nat) : State :=
  ⟨Config.suggested, bm, ask 0 val bytes addr len, [], []⟩

/-- The bytes of the witnesses. -/
def five : Memory := cells 0x200 [0xAA, 0xBB, 0xCC, 0xDD, 0xEE]

theorem witness_DecodeOfEncodeIsTheCommand : (Instr.packm .u32 1).wf = true ∧
    (Instr.packm .u32 32).wf = true ∧ (Instr.mask 127).wf = true ∧ (Instr.lton .f64).wf = true ∧
    (Instr.unpksl .i64 64).wf = true := by decide
theorem witness_EncodeOfDecodeIsTheWord :
    decode 0x00018220 = .ok (.packm .u32 24) ∧ fieldZERO 0x00088220 ≠ 0 ∧
    (fieldOP 0x0000A100 ∈ opcodesW ∧ fieldT 0x0000A100 ≠ 0) ∧
    (fieldOP 0x00008210 ∈ opcodesT ∧ fieldN 0x00008210 ≠ 0) := by decide
theorem witness_EncodedFieldsStandInTheirPlaces :
    (Instr.mask 5).op.format = .W ∧ (Instr.ntom .u8).op.format = .T := by decide
theorem witness_AssembledLineHasItsWord :
    (assemble Config.suggested ⟨.packsm, some .u32, some 24,
      .packSlice (2 ^ 64 - 1) (2 ^ 32 - 1) (2 ^ 32 - 1)⟩).isSome = true ∧
    (assemble Config.suggested ⟨.mask, none, some 127, .none⟩).isSome = true ∧
    (assemble Config.suggested ⟨.ntol, some .u64, none, .value 0⟩).isSome = true := by decide
theorem witness_PseudoCommandsExpand : 2 ^ 64 - 1 < 2 ^ 64 ∧ 0 < NType.u8.width / 8 ∧
    7 < NType.u64.width / 8 := by decide
theorem witness_OpcodeBitsNameFamilyOrderDirection :
    4 ≤ ((0x40#8).extractLsb' 4 4).toNat ∧ Op.ntom.code.extractLsb' 4 4 ≠ 0 := by decide
theorem witness_RowIsSelectedByMaskAndMatch :
    decode 0x00018220 = .ok (.packm .u32 24) ∧ Op.packm.format ≠ .W := by decide

/-- A slice that wraps by one byte, and one that ends at the top. -/
theorem witness_RequestIsIllegalExactlyByItsBits :
    IllegalRequest Config.suggested (ask 0x00010130 0x1234 [] 0xFFFFFFFF 2) ∧
    ¬ IllegalRequest Config.suggested (ask 0x00010130 0x1234 [] 0xFFFFFFFE 2) := by
  unfold IllegalRequest IllegalWord typeReserved widthOutside; decide
theorem witness_IllegalRequestHasNoEffect :
    IllegalRequest Config.suggested (ask 0x00009020 0x1FF [] 0 0) ∧
    (unit [] (ask 0x00009020 0x1FF [] 0 0)).pending = [.command (ask 0x00009020 0x1FF [] 0 0)] := by
  unfold IllegalRequest IllegalWord typeReserved widthOutside; decide
/-- Illegal and of the wrong size at once: V-ILL-25. -/
theorem witness_ChecksInOrder_illegal : IllegalRequest Config.suggested (ask 0x00010130 0 [] 0xFFFFFFFF 3) ∧
    SizeMismatch (ask 0x00010130 0 [] 0xFFFFFFFF 3) := by
  unfold IllegalRequest IllegalWord typeReserved widthOutside SizeMismatch; decide
/-- Legal and of the wrong size: S6. -/
theorem witness_ChecksInOrder_mismatch : ¬ IllegalRequest Config.suggested (ask 0x00018230 0 [] 0x100 4) ∧
    SizeMismatch (ask 0x00018230 0 [] 0x100 4) := by
  unfold IllegalRequest IllegalWord typeReserved widthOutside SizeMismatch; decide
/-- Legal and of the right size, up to the top of the space: V-SL-19. -/
theorem witness_ChecksInOrder_ok : ¬ IllegalRequest Config.suggested (ask 0x00010130 0 [] 0xFFFFFFFE 2) ∧
    ¬ SizeMismatch (ask 0x00010130 0 [] 0xFFFFFFFE 2) := by
  unfold IllegalRequest IllegalWord typeReserved widthOutside SizeMismatch; decide
theorem witness_StepRunsDecodedCommand :
    (unit [] (ask 0x00018220 0 [] 0 0)).pending = .command (ask 0x00018220 0 [] 0 0) :: [] ∧
    decode (ask 0x00018220 0 [] 0 0).cw = .ok (.packm .u32 24) := by decide
theorem witness_HostResetChangesNothing :
    (State.mk ⟨4⟩ five Request.zero [.reset, .store 0 1] []).pending = .reset :: [.store 0 1] := rfl
/-- The last address and the one past it. -/
theorem witness_HostStoreWritesItsByte :
    (State.mk ⟨4⟩ [] Request.zero [.store 15 1] []).pending = .store 15 1 :: [] ∧
    15 < Config.space ⟨4⟩ ∧ Config.space ⟨4⟩ ≤ 16 := by decide
theorem witness_IdleUnitStays : State.reset.pending = [] := rfl
theorem witness_StepKeepsTheInvariant :
    (unit five (ask 0x00018230 0xCCBBAA [] 0x201 3)).inv = true ∧
    ∃ t, step (unit five (ask 0x00018230 0xCCBBAA [] 0x201 3)) = .next t := ⟨by decide, _, rfl⟩
theorem witness_SliceNeverWrapsOrFaults :
    (atPorts [] 0 [] 0xFFFFFFFF 2).ports.addr + (atPorts [] 0 [] 0xFFFFFFFF 2).ports.len =
      2 ^ (atPorts [] 0 [] 0xFFFFFFFF 2).cfg.abits + 1 ∧
    exec (.unpksl .u8 1) (atPorts [] 0 [] 0xFFFFFFFF 2) = .refused (.illegal .sliceWrap) ∧
    writesMemory (.packsm .u16 16) ∧ readsMemory (.unpksl .u8 8) ∧
    ∃ t, exec (.packsm .u16 16) (atPorts [] 0x1234 [] 0xFFFFFFFE 2) = .next t ∧
      t.responses = (atPorts [] 0x1234 [] 0xFFFFFFFE 2).responses ++ [.ok .nothing] :=
  ⟨by decide, rfl, .inl rfl, .inr rfl, _, rfl, rfl⟩
theorem witness_AnswerDependsOnMemoryAndRequestOnly :
    (∃ t, step (unit five (ask 0x00018230 0xCCBBAA [] 0x201 3)) = .next t) ∧
    decode (ask 0x0000A000 0 [] 0 0).cw = .ok (.nbytes 10) ∧
    ¬ writesMemory (.nbytes 10) ∧ ¬ readsMemory (.nbytes 10) :=
  ⟨⟨_, rfl⟩, rfl, by unfold writesMemory; decide, by unfold readsMemory; decide⟩
/-- Two requests that differ in a lane, an address and the high bits of VAL. -/
theorem witness_UnusedPortsAreIgnored :
    agreeOnNamed (.ntom .u16) (ask 0 0xFF001234 [1] 0 0) (ask 0 0x1234 [2] 7 9) ∧
    agreeOnNamed (.mton .u16) (ask 0 1 [1, 2, 3] 0 0) (ask 0 2 [1, 2, 4] 7 9) ∧
    ∃ t L k, exec (.ntom .u16) (atPorts [] 0x1234 [] 0 0) = .next t ∧
      t.responses = (atPorts [] 0x1234 [] 0 0).responses ++ [.ok (.bytes L k)] ∧ k.toNat = 2 :=
  ⟨by unfold agreeOnNamed; decide, by unfold agreeOnNamed; decide, _, _, _, rfl, rfl, rfl⟩
theorem witness_HighBitsOfValuePorts :
    typeOf (.fromp .u8 3) = some .u8 ∧
    (∀ b, b < NType.u8.width → (0xFF05#64).getLsbD b = (0x05#64).getLsbD b) ∧
    ∃ t v, exec (.fromp .u8 3) (atPorts [] 0xFF05 [] 0 0) = .next t ∧
      t.responses = (atPorts [] 0xFF05 [] 0 0).responses ++ [.ok (.value v)] :=
  ⟨rfl, by decide, _, _, rfl, rfl⟩
theorem witness_SameWidthTypesAnswerAlike :
    Instr.vmask ∈ typedCommands ∧ NType.u32.width = NType.f32.width :=
  ⟨List.mem_cons_self, rfl⟩

/-- Widths at both ends, for the statements about the functions. -/
theorem witness_BytesForIsTheMinimalByteCount : (1 ≤ 1 ∧ 1 ≤ 64) ∧ (1 ≤ 64 ∧ 64 ≤ 64) ∧ 64 ≤ 8 * 8 := by
  decide
theorem witness_NativeBytesAreTheSlices : 8 ∈ [8, 16, 32, 64] ∧ 0 < 8 / 8 ∧ 7 < 64 / 8 := by decide
theorem witness_NativeValueIsTheConcatenation :
    32 ∈ [8, 16, 32, 64] ∧ ([0xAA, 0xBB, 0xCC, 0xDD] : List Byte).length = 32 / 8 := by decide
theorem witness_NativeConversionsInvert :
    8 ∈ [8, 16, 32, 64] ∧ ([0xA5] : List Byte).length = 8 / 8 := by decide
theorem witness_SwapReversesTheBytes : 0 < NType.u16.width / 8 ∧ NType.i8.width = 8 := by decide
theorem witness_MasksHaveTheirBits : 16 ∈ [8, 16, 32, 64] ∧ 15 < 16 ∧ 16 ≤ 16 ∧ 63 < 64 := by decide
theorem witness_FromPrimitiveKeepsTheLowBits : 64 ∈ [8, 16, 32, 64] := by decide
theorem witness_SizedBytesAreTheSlices : 32 ∈ [8, 16, 32, 64] ∧ 1 ≤ 24 ∧ 24 ≤ 32 ∧
    0xCCBBAA#32 &&& maskW 32 24 = 0xCCBBAA#32 ∧ 2 < bytesFor 24 ∧ 0 < 32 / 8 - bytesFor 24 := by decide
theorem witness_SizedValueIsTheMaskedConcatenation : 16 ∈ [8, 16, 32, 64] ∧ 1 ≤ 10 ∧ 10 ≤ 16 ∧
    ([0xFE, 0xAA] : List Byte).length = bytesFor 10 := by decide
theorem witness_PackThenUnpackIsTheMaskedValue : 8 ∈ [8, 16, 32, 64] ∧
    1 ≤ (8#7).toNat ∧ (8#7).toNat ≤ NType.u8.width := by decide
theorem witness_ReturnedValuesAreConformant :
    (∃ t v, exec (.fromp .u8 3) (atPorts [] 0xFF [] 0 0) = .next t ∧
      t.responses = (atPorts [] 0xFF [] 0 0).responses ++ [.ok (.value v)]) ∧
    (∃ t L k, exec (.packm .u16 10) (atPorts [] 0xFFFF [] 0 0) = .next t ∧
      t.responses = (atPorts [] 0xFFFF [] 0 0).responses ++ [.ok (.bytes L k)]) ∧
    (∃ t L k, exec (.packl .u16 10) (atPorts [] 0xFFFF [] 0 0) = .next t ∧
      t.responses = (atPorts [] 0xFFFF [] 0 0).responses ++ [.ok (.bytes L k)]) ∧
    (∃ t, exec (.packsm .u16 10) (atPorts [] 0xFFFF [] 0x10 2) = .next t ∧
      t.responses = (atPorts [] 0xFFFF [] 0x10 2).responses ++ [.ok .nothing]) ∧
    (∃ t, exec (.packsl .u16 10) (atPorts [] 0xFFFF [] 0x10 2) = .next t ∧
      t.responses = (atPorts [] 0xFFFF [] 0x10 2).responses ++ [.ok .nothing]) ∧
    (10 ≤ 15 ∧ 15 < 8 * B 10) :=
  ⟨⟨_, _, rfl, rfl⟩, ⟨_, _, _, rfl, rfl⟩, ⟨_, _, _, rfl, rfl⟩, ⟨_, rfl, rfl⟩, ⟨_, rfl, rfl⟩, by decide⟩
theorem witness_PaddingBitsAreDiscarded : 16 ∈ [8, 16, 32, 64] ∧ 1 ≤ (10#7).toNat ∧ (10#7).toNat ≤ 16 ∧
    ([0xFE, 0xAA] : List Byte).length = B 10 := by decide
theorem witness_LsbIsMsbReversedForEveryWidth : 16 ∈ [8, 16, 32, 64] ∧ 1 ≤ 10 ∧ 10 ≤ 16 ∧
    0x2AA#16 &&& maskW 16 10 = 0x2AA#16 ∧ ([0x02, 0xAA] : List Byte).length = bytesFor 10 := by decide

/-- The hypotheses of a format TN command's encoding: a width at each end, a word of the opcode with a
reserved bit set, one with a reserved type, one with N past W, and a width outside the range. -/
def meetsTN (op : BitVec 8) : Prop :=
  (1 ≤ (1#7).toNat ∧ (1#7).toNat ≤ NType.u8.width) ∧
  (1 ≤ (64#7).toNat ∧ (64#7).toNat ≤ NType.f64.width) ∧
  (fieldOP (bits 1 8 2 op) = op ∧ fieldZERO (bits 1 8 2 op) ≠ 0) ∧
  (fieldOP (bits 0 8 8 op) = op ∧ fieldT (bits 0 8 8 op) = 0x8#4) ∧
  (fieldOP (bits 0 33 2 op) = op ∧ ¬ (fieldN (bits 0 33 2 op)).toNat ≤ typedWidth (bits 0 33 2 op)) ∧
  ¬ 1 ≤ (0#7).toNat

/-- The same for a format T command: a reserved bit, a reserved type, a width. -/
def meetsT (op : BitVec 8) : Prop :=
  (fieldOP (bits 1 0 2 op) = op ∧ fieldZERO (bits 1 0 2 op) ≠ 0) ∧
  (fieldOP (bits 0 0 15 op) = op ∧ fieldT (bits 0 0 15 op) = 0xF#4) ∧
  (fieldOP (bits 0 8 2 op) = op ∧ fieldN (bits 0 8 2 op) ≠ 0)

/-- The same for a format W command with range `lo` to `hi`, with the words outside at `n`. -/
def meetsW (op : BitVec 8) (lo hi : BitVec 7) (n : List (BitVec 7)) : Prop :=
  lo.toNat ≤ hi.toNat ∧ (fieldOP (bits 1 lo 0 op) = op ∧ fieldZERO (bits 1 lo 0 op) ≠ 0) ∧
  (fieldOP (bits 0 lo 1 op) = op ∧ fieldT (bits 0 lo 1 op) ≠ 0) ∧
  ∀ x ∈ n, fieldOP (bits 0 x 0 op) = op ∧ ¬(lo.toNat ≤ (fieldN (bits 0 x 0 op)).toNat ∧
    (fieldN (bits 0 x 0 op)).toNat ≤ hi.toNat)

theorem witness_NbytesAnswersTheMinimalByteCount : meetsW 0x00 1 64 [0, 65] := by unfold meetsW; decide
theorem witness_BitwAnswersTheWidth : meetsW 0x01 1 64 [0, 65] := by unfold meetsW; decide
/-- Every width is inside MASK's range, so no word is outside it. -/
theorem witness_MaskAnswersTheMask : meetsW 0x02 0 127 [] ∧ 64 ≤ (64#7).toNat ∧ 63 < 64 := by
  unfold meetsW; decide
theorem witness_VmaskAnswersTheTypedMask : meetsTN 0x03 := by unfold meetsTN; decide
theorem witness_FrompMasksTheValue : meetsTN 0x04 := by unfold meetsTN; decide
theorem witness_NtomAnswersTheMsbBytes : meetsT 0x10 := by unfold meetsT; decide
theorem witness_NtolAnswersTheLsbBytes : meetsT 0x11 := by unfold meetsT; decide
theorem witness_MtonAnswersTheValueOfMsbBytes : meetsT 0x12 := by unfold meetsT; decide
theorem witness_LtonAnswersTheValueOfLsbBytes : meetsT 0x13 := by unfold meetsT; decide
theorem witness_PackmAnswersTheMinimalMsbBytes : meetsTN 0x20 := by unfold meetsTN; decide
theorem witness_PacklAnswersTheMinimalLsbBytes : meetsTN 0x21 := by unfold meetsTN; decide
theorem witness_UnpkmAnswersTheMaskedValue : meetsTN 0x22 := by unfold meetsTN; decide
theorem witness_UnpklAnswersTheMaskedValue : meetsTN 0x23 := by unfold meetsTN; decide

/-- The three clauses of a slice command at ABITS = 32, N = 24: a wrap by one, the wrong size on each
side of B = 3, the right size up to the top of the space. -/
def meetsSlice (op : BitVec 8) : Prop :=
  meetsTN op ∧ 0xFFFFFFFE + 3 > 2 ^ Config.suggested.abits ∧
  (0xFFFFFFFE + 2 ≤ 2 ^ Config.suggested.abits ∧ 2 ≠ B 24 ∧ 2 < B 24) ∧
  (0x100 + 4 ≤ 2 ^ Config.suggested.abits ∧ 4 ≠ B 24 ∧ B 24 ≤ 4) ∧
  (0xFFFFFFFD + 3 ≤ 2 ^ Config.suggested.abits ∧ 3 = B 24)
theorem witness_PacksmWritesTheMsbBytes : meetsSlice 0x30 := by unfold meetsSlice meetsTN; decide
theorem witness_PackslWritesTheLsbBytes : meetsSlice 0x31 := by unfold meetsSlice meetsTN; decide
theorem witness_UnpksmAnswersTheMaskedValue : meetsSlice 0x32 := by unfold meetsSlice meetsTN; decide
theorem witness_UnpkslAnswersTheMaskedValue : meetsSlice 0x33 := by unfold meetsSlice meetsTN; decide

theorem witness_NonWritingCommandsFrame : ¬ writesMemory (.unpksm .u32 32) ∧
    ∃ t, exec (.unpksm .u32 32) (atPorts five 0 [] 0x200 5) = .next t :=
  ⟨by unfold writesMemory; decide, _, rfl⟩
theorem witness_SliceCommandsTouchTheirBytesOnly : writesMemory (.packsl .u16 10) ∧
    (∃ t, exec (.packsl .u16 10) (atPorts five 0x2AA [] 0x200 2) = .next t) ∧
    (∃ t, exec (.packsl .u16 10) (atPorts five 0x2AA [] 0x200 3) = .next t) ∧
    readsMemory (.unpksm .u32 24) ∧
    ∀ j, j < B 24 → Memory.byteAt five (0x200 + j) =
      Memory.byteAt (cells 0x200 [0xAA, 0xBB, 0xCC, 0x00]) (0x200 + j) :=
  ⟨.inr rfl, ⟨_, rfl⟩, ⟨_, rfl⟩, .inl rfl, by decide⟩
theorem witness_MismatchExactlyWhenTheSizeIsWrong :
    ∃ t, exec (.unpksl .u32 32) (atPorts five 0 [] 0x200 3) = .next t ∧
      t.responses = (atPorts five 0 [] 0x200 3).responses ++ [.bufferSizeMismatch 4 3] ∧
      readsMemory (.unpksl .u32 32) := ⟨_, rfl, rfl, .inr rfl⟩
/-- Pack in either order, then unpack with a longer slice. -/
theorem witness_SliceRoundTrip :
    1 ≤ (24#7).toNat ∧ (24#7).toNat ≤ NType.u32.width ∧ 3 = B 24 ∧ 0x200 + 3 ≤ 2 ^ 32 ∧ B 24 ≤ 5 ∧
    (∃ s1, exec (.packsm .u32 24) (atPorts five 0xCCBBAA [] 0x200 3) = .next s1 ∧
      ∀ j, j < B 24 → Memory.byteAt { s1 with ports := ask 0 0 [] 0x200 5 }.bm (0x200 + j) =
        Memory.byteAt s1.bm (0x200 + j)) ∧
    ∃ s1, exec (.packsl .u32 24) (atPorts five 0xCCBBAA [] 0x200 3) = .next s1 :=
  ⟨by decide, by decide, by decide, by decide, by decide, ⟨_, rfl, fun _ _ => rfl⟩, _, rfl⟩
/-- Two images that differ in the padding bits of the first byte. -/
theorem witness_MsbImageInMemory : 1 ≤ (10#7).toNat ∧ (10#7).toNat ≤ NType.u16.width ∧
    0x10 + 2 ≤ 2 ^ 32 ∧ 2 = B 10 ∧
    (∀ j, 1 ≤ j → j < B 10 → Memory.byteAt (cells 0x10 [0xFE, 0xAA]) (0x10 + j) =
      Memory.byteAt (cells 0x10 [0x02, 0xAA]) (0x10 + j)) ∧
    ∀ b, b < (10#7).toNat - 8 * (B 10 - 1) →
      (Memory.byteAt (cells 0x10 [0xFE, 0xAA]) 0x10).getLsbD b =
        (Memory.byteAt (cells 0x10 [0x02, 0xAA]) 0x10).getLsbD b :=
  ⟨by decide, by decide, by decide, by decide, fun j h1 h2 => by
    obtain rfl : j = 1 := by have : B 10 = 2 := rfl
                             omega
    rfl, by decide⟩
/-- Two images that differ in the padding bits of the last byte. -/
theorem witness_LsbImageInMemory : 1 ≤ (10#7).toNat ∧ (10#7).toNat ≤ NType.u16.width ∧
    0x10 + 2 ≤ 2 ^ 32 ∧ 2 = B 10 ∧
    (∀ j, j + 1 < B 10 → Memory.byteAt (cells 0x10 [0xAA, 0xFE]) (0x10 + j) =
      Memory.byteAt (cells 0x10 [0xAA, 0x02]) (0x10 + j)) ∧
    ∀ b, b < (10#7).toNat - 8 * (B 10 - 1) →
      (Memory.byteAt (cells 0x10 [0xAA, 0xFE]) (0x10 + (B 10 - 1))).getLsbD b =
        (Memory.byteAt (cells 0x10 [0xAA, 0x02]) (0x10 + (B 10 - 1))).getLsbD b :=
  ⟨by decide, by decide, by decide, by decide, fun j h => by
    obtain rfl : j = 0 := by have : B 10 = 2 := rfl
                             omega
    rfl, by decide⟩

end Sys2Proof.Tests
end

/-! The value and byte-lane ports a command reads, and the shape of what it answers (spec 10 R34, R35). -/

namespace Sys2Proof.Ports
open Sys2Proof.Machine Sys2Proof.Claims

/-! ### Ports as the operands read them -/

theorem width_le (t : NType) : t.width ≤ 64 := by cases t <;> decide

/-- `low` keeps exactly the bits below its width. -/
theorem low_eq_iff (W : Nat) (v v' : Word) (hW : W ≤ 64) :
    low W v = low W v' ↔ ∀ b, b < W → v.getLsbD b = v'.getLsbD b := by
  have bit (x : Word) (b : Nat) (hb : b < 64) :
      (low W x).getLsbD b = (x.getLsbD b && decide (b < W)) := by
    rw [low, BitVec.getLsbD_and, BitVec.getLsbD_ofNat, Nat.testBit_two_pow_sub_one]
    simp [hb]
  constructor
  · intro h b hb
    have := congrArg (BitVec.getLsbD · b) h
    simpa [bit _ b (by omega), hb] using this
  · refine fun h => BitVec.eq_of_getLsbD_eq fun b hb => ?_
    rw [bit v b hb, bit v' b hb]
    by_cases hbW : b < W
    · rw [h b hbW]
    · simp [hbW]

section operands
variable (t : NType) (s : State) (r r' : Request)

theorem valOperand_eq_of_low (h : low t.width r.val = low t.width r'.val) :
    valOperand t { s with ports := r } = valOperand t { s with ports := r' } := by
  refine BitVec.eq_of_getLsbD_eq fun b hb => ?_
  simpa [valOperand, hb] using (low_eq_iff _ _ _ (width_le t)).1 h b hb

theorem sizedOperand_eq_of_low (n : BitVec 7) (h : low t.width r.val = low t.width r'.val) :
    sizedOperand t n { s with ports := r } = sizedOperand t n { s with ports := r' } := by
  rw [sizedOperand, sizedOperand, valOperand_eq_of_low t s r r' h]

theorem byteOperand_eq_of_lanes (k : Nat) (h : ∀ j, j < k → lane r.bytes j = lane r'.bytes j) :
    byteOperand k { s with ports := r } = byteOperand k { s with ports := r' } := by
  refine List.ext_getElem (by simp [byteOperand]) fun j hj hj' => ?_
  simp only [byteOperand, List.length_take, Vector.length_toList] at hj
  have := h j (by omega)
  simpa [lane, byteOperand, List.getD_eq_getElem?_getD, show j < 8 by omega] using this

end operands

/-! ### Outcomes with the same response and buffer memory -/

section sameAnswer
variable {s : State} {r r' : Request}

theorem sameAnswer_refl (x : Result) : sameAnswer x x := by
  cases x
  case next => exact ⟨rfl, rfl⟩
  case fault => rfl
  case refused => rfl

/-- Outcomes that differ in the request ports of the next state only. -/
theorem sameAnswer_respond (p : Response) :
    sameAnswer (.next (State.respond { s with ports := r } p))
      (.next (State.respond { s with ports := r' } p)) := ⟨rfl, rfl⟩

theorem sameAnswer_respondValue {W : Nat} {x x' : BitVec W} (h : x = x') :
    sameAnswer (respondValue x { s with ports := r }) (respondValue x' { s with ports := r' }) := by
  rw [h]
  exact sameAnswer_respond _

theorem sameAnswer_respondBytes {a a' : List Byte} (h : a = a') :
    sameAnswer (respondBytes a { s with ports := r }) (respondBytes a' { s with ports := r' }) := by
  rw [h]
  exact sameAnswer_respond _

theorem sameAnswer_guardWidth (limit : Nat) (n : BitVec 7) {s s' : State} {k k' : Result}
    (h : sameAnswer k k') : sameAnswer (guardWidth limit n s k) (guardWidth limit n s' k') := by
  by_cases hn : 1 ≤ n.toNat ∧ n.toNat ≤ limit
  · rwa [guardWidth_of_in _ _ _ _ hn, guardWidth_of_in _ _ _ _ hn]
  · rw [guardWidth_of_out _ _ _ _ hn, guardWidth_of_out _ _ _ _ hn]
    exact sameAnswer_refl _

theorem sameAnswer_guardSlice {k k' : Result} (ha : r.addr = r'.addr) (hl : r.len = r'.len)
    (h : sameAnswer k k') :
    sameAnswer (guardSlice { s with ports := r } k) (guardSlice { s with ports := r' } k') := by
  unfold guardSlice
  rw [ha, hl]
  split
  · exact h
  · exact sameAnswer_refl _

theorem sameAnswer_packSlice (f : (W N : Nat) → BitVec W → List Byte) (t : NType) (n : BitVec 7)
    (hv : low t.width r.val = low t.width r'.val) (ha : r.addr = r'.addr) (hl : r.len = r'.len) :
    sameAnswer (packSlice f t n { s with ports := r }) (packSlice f t n { s with ports := r' }) := by
  refine sameAnswer_guardWidth _ _ (sameAnswer_guardSlice ha hl ?_)
  rw [sizedOperand_eq_of_low t s r r' n hv, ha, hl]
  split
  · exact sameAnswer_respond _
  · unfold memWrite
    split_ifs
    · exact ⟨rfl, rfl⟩
    · exact sameAnswer_refl _

theorem sameAnswer_unpackSlice (f : (W N : Nat) → List Byte → BitVec W) (t : NType) (n : BitVec 7)
    (ha : r.addr = r'.addr) (hl : r.len = r'.len) :
    sameAnswer (unpackSlice f t n { s with ports := r })
      (unpackSlice f t n { s with ports := r' }) := by
  refine sameAnswer_guardWidth _ _ (sameAnswer_guardSlice ha hl ?_)
  rw [ha, hl]
  split
  · exact sameAnswer_respond _
  · unfold memRead
    split_ifs
    · exact sameAnswer_respond _
    · exact sameAnswer_refl _

end sameAnswer

/-- A command reads no port or lane but those its rule names (30 R75). -/
theorem exec_sameAnswer (i : Instr) (s : State) (r r' : Request) (h : agreeOnNamed i r r') :
    sameAnswer (exec i { s with ports := r }) (exec i { s with ports := r' }) := by
  cases i
  case nbytes | bitw | vmask => exact sameAnswer_guardWidth _ _ (sameAnswer_respondValue rfl)
  case mask => exact sameAnswer_respondValue rfl
  case fromp t n =>
    have hv := valOperand_eq_of_low t s r r' h
    exact sameAnswer_guardWidth _ _ (sameAnswer_respondValue (by rw [hv]))
  case ntom t | ntol t =>
    have hv := valOperand_eq_of_low t s r r' h
    exact sameAnswer_respondBytes (by rw [hv])
  case mton t | lton t =>
    have hb := byteOperand_eq_of_lanes s r r' _ h
    exact sameAnswer_respondValue (by rw [hb])
  case packm t n | packl t n =>
    have hv := sizedOperand_eq_of_low t s r r' n h
    exact sameAnswer_guardWidth _ _ (sameAnswer_respondBytes (by rw [hv]))
  case unpkm t n | unpkl t n =>
    have hb := byteOperand_eq_of_lanes s r r' (bytesFor n.toNat) h
    exact sameAnswer_guardWidth _ _ (sameAnswer_respondValue (by rw [hb]))
  case packsm | packsl =>
    obtain ⟨hv, ha, hl⟩ := h
    exact sameAnswer_packSlice _ _ _ hv ha hl
  case unpksm | unpksl =>
    obtain ⟨ha, hl⟩ := h
    exact sameAnswer_unpackSlice _ _ _ ha hl

/-! ### What a command answers -/

/-- The payloads a command can answer: a value extended from its native width (10 R35), or the lanes of
at most eight bytes with their number (10 R34). -/
def answerShape (i : Instr) : Response → Prop
  | .ok (.value v) => ∀ t, typeOf i = some t → ∃ x : BitVec t.width, v = x.setWidth 64
  | .ok (.bytes L k) => ∃ a : List Byte, a.length ≤ 8 ∧ L = lanesOf a ∧ k = BitVec.ofNat 4 a.length
  | .ok .nothing | .bufferSizeMismatch _ _ | .illegal => True

/-- The next state records one more response, of the command's shape. -/
def answersInShape (i : Instr) (s t : State) : Prop :=
  ∃ p, t.responses = s.responses ++ [p] ∧ answerShape i p

section shape
variable {i : Instr} {s t : State}

theorem answersInShape_respondValue {W : Nat} {x : BitVec W}
    (hx : ∀ ty, typeOf i = some ty → ty.width = W) (h : respondValue x s = .next t) :
    answersInShape i s t := by
  cases h
  refine ⟨_, rfl, fun ty hty => ?_⟩
  obtain rfl := hx ty hty
  exact ⟨x, rfl⟩

theorem answersInShape_respondBytes {a : List Byte} (ha : a.length ≤ 8)
    (h : respondBytes a s = .next t) : answersInShape i s t := by
  cases h
  exact ⟨_, rfl, a, ha, rfl, rfl⟩

theorem answersInShape_packSlice {f : (W N : Nat) → BitVec W → List Byte} {ty : NType} {n : BitVec 7}
    (h : packSlice f ty n s = .next t) : answersInShape i s t := by
  obtain ⟨-, -, ⟨-, rfl⟩ | ⟨-, -, rfl⟩⟩ := (packSlice_next _ _ _ _ _).1 h
  · exact ⟨_, rfl, trivial⟩
  · exact ⟨_, rfl, trivial⟩

theorem answersInShape_unpackSlice {f : (W N : Nat) → List Byte → BitVec W} {ty : NType}
    {n : BitVec 7} (hx : typeOf i = some ty) (h : unpackSlice f ty n s = .next t) :
    answersInShape i s t := by
  obtain ⟨-, -, ⟨-, rfl⟩ | ⟨-, rfl⟩⟩ := (unpackSlice_next _ _ _ _ _).1 h
  · exact ⟨_, rfl, trivial⟩
  · refine answersInShape_respondValue (fun ty' h' => ?_) rfl
    rw [Option.some.inj (hx.symm.trans h')]

end shape

theorem exec_answersInShape (i : Instr) (s t : State) (h : exec i s = .next t) :
    answersInShape i s t := by
  cases i
  case nbytes | bitw | vmask | fromp | unpkm | unpkl =>
    obtain ⟨-, h⟩ := (guardWidth_next _ _ _ _ _).1 h
    exact answersInShape_respondValue (by simp [typeOf]) h
  case mask | mton | lton => exact answersInShape_respondValue (by simp [typeOf]) h
  case ntom ty | ntol ty =>
    have hW := width_le ty
    exact answersInShape_respondBytes (by simp only [nativeToMsb_length, nativeToLsb_length]; omega) h
  case packm ty n | packl ty n =>
    obtain ⟨hn, h⟩ := (guardWidth_next _ _ _ _ _).1 h
    obtain ⟨-, hB, h8⟩ := bytesFor_fits ty _ hn
    exact answersInShape_respondBytes (by simpa only [svToMsb_length _ _ _ hB, svToLsb_length _ _ _ hB]) h
  case packsm | packsl => exact answersInShape_packSlice h
  case unpksm | unpksl => exact answersInShape_unpackSlice rfl h

theorem exec_answerShape {i : Instr} {s t : State} {p : Response} (h : exec i s = .next t)
    (hp : t.responses = s.responses ++ [p]) : answerShape i p := by
  obtain ⟨q, hq, hshape⟩ := exec_answersInShape i s t h
  obtain rfl : q = p := by simpa using hq.symm.trans hp
  exact hshape

theorem lane_lanesOf_of_ge (a : List Byte) (j : Nat) (h : a.length ≤ j) : lane (lanesOf a) j = 0 := by
  by_cases hj : j < 8
  · simp [lane, List.getD_eq_getElem?_getD, hj, lanesOf_getElem, h]
  · simp [lane, List.getD_eq_getElem?_getD, hj]

/-- Settles O22: `exec_sameAnswer` for the ports, and RLEN counts the bytes that fill RBYTES. -/
theorem unusedPortsAreIgnored : Obligations.UnusedPortsAreIgnored := by
  refine ⟨exec_sameAnswer, fun i s t L k h hresp j hj => ?_⟩
  obtain ⟨a, ha, rfl, rfl⟩ := exec_answerShape h hresp
  rw [BitVec.toNat_ofNat, Nat.mod_eq_of_lt (by omega)] at hj
  exact lane_lanesOf_of_ge a j hj

/-- Requests that differ above `W` in VAL only agree on what the command names. -/
theorem agreeOnNamed_of_val (i : Instr) (t : NType) (r : Request) (v v' : Word)
    (ht : typeOf i = some t) (h : low t.width v = low t.width v') :
    agreeOnNamed i { r with val := v } { r with val := v' } := by
  cases i
  case fromp | ntom | ntol | packm | packl =>
    cases ht
    exact h
  case packsm | packsl =>
    cases ht
    exact ⟨h, rfl, rfl⟩
  case mton | lton | unpkm | unpkl => exact fun _ _ => rfl
  case unpksm | unpksl => exact ⟨rfl, rfl⟩
  case nbytes | bitw | mask | vmask => trivial

/-- Settles O23: the requests agree on the named ports, and a value answered is extended from `W` bits. -/
theorem highBitsOfValuePorts : Obligations.HighBitsOfValuePorts := by
  refine ⟨fun i t s v v' ht hv => ?_, fun i t s s' v ht h hresp b hb => ?_⟩
  · exact exec_sameAnswer i s _ _
      (agreeOnNamed_of_val i t s.ports v v' ht ((low_eq_iff _ _ _ (width_le t)).2 hv))
  · obtain ⟨x, rfl⟩ := exec_answerShape h hresp t ht
    rw [BitVec.getLsbD_setWidth, BitVec.getLsbD_of_ge x b hb, Bool.and_false]

end Sys2Proof.Ports

/-! The slice commands on buffer memory: which bytes each accesses, and the MSB and LSB images of a
sized value (spec 20 R44, R45, R49). -/

namespace Sys2Proof.Slices
open Sys2Proof.Machine Sys2Proof.Claims Sys2Proof.Ports

/-! ### Sized values and their bytes -/

theorem width_mod (t : NType) : t.width % 8 = 0 := by cases t <;> rfl

theorem bytesFor_toNat (n : BitVec 7) : bytesFor n.toNat = B n := rfl

theorem B_fits (t : NType) (n : BitVec 7) (h : 1 ≤ n.toNat ∧ n.toNat ≤ t.width) :
    1 ≤ B n ∧ B n ≤ t.width / 8 ∧ B n ≤ 8 := bytesFor_fits t _ h

/-- All bytes of a minimal array but the highest are filled. -/
theorem padding_start_le (n : BitVec 7) : 8 * (B n - 1) ≤ n.toNat := by unfold B; omega

theorem low_bit (N : Nat) (v : Word) (b : Nat) (hb : b < 64) :
    (low N v).getLsbD b = (decide (b < N) && v.getLsbD b) := by
  rw [low, BitVec.getLsbD_and, BitVec.getLsbD_ofNat, Nat.testBit_two_pow_sub_one]
  simp [hb, Bool.and_comm]

theorem low_lt (N : Nat) (v : Word) : (low N v).toNat < 2 ^ N := by
  have h : (low N v).toNat ≤ (2 ^ N - 1) % 2 ^ 64 := by
    rw [low, BitVec.toNat_and, BitVec.toNat_ofNat]
    exact Nat.and_le_right
  have := Nat.mod_le (2 ^ N - 1) (2 ^ 64)
  have := Nat.two_pow_pos N
  omega

/-- The byte at bit `k` of a value below `2^N` has no bit at or above `N - k`. -/
theorem extractLsb'_low_lt (N k : Nat) (v : Word) (hk : k ≤ N) :
    ((low N v).extractLsb' k 8).toNat < 2 ^ (N - k) := by
  rw [BitVec.extractLsb'_toNat, Nat.shiftRight_eq_div_pow]
  refine (Nat.mod_le _ _).trans_lt (Nat.div_lt_of_lt_mul ?_)
  rw [← Nat.pow_add, Nat.add_sub_cancel' hk]
  exact low_lt N v

/-- A word below `2^N` is fixed by its low `N` bits. -/
theorem eq_of_low_bits {N : Nat} {v v' : Word} (hv : v.toNat < 2 ^ N) (hv' : v'.toNat < 2 ^ N)
    (h : ∀ i, i < N → v.getLsbD i = v'.getLsbD i) : v = v' := by
  refine BitVec.eq_of_getLsbD_eq fun i _ => ?_
  by_cases hi : i < N
  · exact h i hi
  · have hN : 2 ^ N ≤ 2 ^ i := Nat.pow_le_pow_right (by omega) (by omega)
    rw [BitVec.getLsbD, BitVec.getLsbD, Nat.testBit_lt_two_pow (hv.trans_le hN),
      Nat.testBit_lt_two_pow (hv'.trans_le hN)]

section sized
variable (t : NType) (n : BitVec 7) (s : State)

/-- The sized operand is the low `N` bits of VAL (42 R153). -/
theorem sizedOperand_bit (b : Nat) (hb : b < t.width) :
    (sizedOperand t n s).getLsbD b = (low n.toNat s.ports.val).getLsbD b := by
  have hW := width_le t
  rw [sizedOperand, fromPrimitive_bit _ _ _ _ hW, low_bit _ _ _ (by omega), valOperand,
    BitVec.getLsbD_setWidth, decide_eq_true hb, Bool.true_and]

theorem sizedOperand_setBm (bm : Memory) :
    sizedOperand t n { s with bm := bm } = sizedOperand t n s := rfl

variable (h : 1 ≤ n.toNat ∧ n.toNat ≤ t.width)
include h

/-- The bytes PACKM and PACKSM answer are the slices of the sized value, the highest first. -/
theorem svToMsb_sized (j : Nat) (hj : j < B n) :
    (svToMsb t.width n.toNat (sizedOperand t n s)).getD j 0 =
      (low n.toNat s.ports.val).extractLsb' (8 * (B n - j - 1)) 8 := by
  obtain ⟨-, hB, -⟩ := B_fits t n h
  refine BitVec.eq_of_getLsbD_eq fun b hb => ?_
  rw [svToMsb_bit _ _ hB _ _ _ (width_mod t) hj hb, BitVec.getLsbD_extractLsb', decide_eq_true hb,
    Bool.true_and]
  exact sizedOperand_bit t n s _ (by rw [bytesFor_toNat]; omega)

/-- The bytes PACKL and PACKSL answer are the slices of the sized value, the lowest first. -/
theorem svToLsb_sized (j : Nat) (hj : j < B n) :
    (svToLsb t.width n.toNat (sizedOperand t n s)).getD j 0 =
      (low n.toNat s.ports.val).extractLsb' (8 * j) 8 := by
  obtain ⟨-, hB, -⟩ := B_fits t n h
  refine BitVec.eq_of_getLsbD_eq fun b hb => ?_
  rw [svToLsb_bit _ _ hB _ _ _ hj hb, BitVec.getLsbD_extractLsb', decide_eq_true hb, Bool.true_and]
  exact sizedOperand_bit t n s _ (by omega)

end sized

/-! ### The slice commands in either byte order -/

/-- A command that writes memory packs to a slice, with `B` bytes of some byte order. -/
theorem exec_of_writesMemory {i : Instr} (h : writesMemory i) :
    ∃ t f, (∀ W N v, bytesFor N ≤ W / 8 → (f W N v).length = bytesFor N) ∧
      ∀ s, exec i s = packSlice f t i.nfield s := by
  cases i
  case packsm t n => exact ⟨t, svToMsb, svToMsb_length, fun _ => rfl⟩
  case packsl t n => exact ⟨t, svToLsb, svToLsb_length, fun _ => rfl⟩
  all_goals exact absurd h (by simp [writesMemory, Instr.op])

/-- A command that reads memory unpacks from a slice, in some byte order. -/
theorem exec_of_readsMemory {i : Instr} (h : readsMemory i) :
    ∃ t f, ∀ s, exec i s = unpackSlice f t i.nfield s := by
  cases i
  case unpksm t n => exact ⟨t, svFromMsb, fun _ => rfl⟩
  case unpksl t n => exact ⟨t, svFromLsb, fun _ => rfl⟩
  all_goals exact absurd h (by simp [readsMemory, Instr.op])

theorem bytesWritten_writeBytes (m : Memory) (a : Nat) (bs : List Byte) :
    bytesWritten (Memory.writeBytes m a bs) a bs.length = true := by
  refine List.all_eq_true.2 fun j hj => ?_
  have hj := List.mem_range.1 hj
  simp [find_writeBytes, hj]

section pack
variable (t : NType) (n : BitVec 7) (s : State)
  (hn : 1 ≤ n.toNat ∧ n.toNat ≤ t.width) (hs : s.ports.addr + s.ports.len ≤ s.cfg.space)
  (hl : s.ports.len = B n)
include hn hs hl

/-- A pack to a slice of exactly `B` bytes puts its byte `j` at `ADDR + j` (43 R174, R175). -/
theorem packSlice_image (f : (W N : Nat) → BitVec W → List Byte)
    (hf : (f t.width n.toNat (sizedOperand t n s)).length = B n) :
    ∃ s', packSlice f t n s = .next s' ∧
      ∀ j, j < B n → Memory.byteAt s'.bm (s.ports.addr + j) =
        (f t.width n.toNat (sizedOperand t n s)).getD j 0 := by
  refine ⟨_, (packSlice_next _ _ _ _ _).2 ⟨hn, hs, .inr ⟨hl, by omega, rfl⟩⟩, fun j hj => ?_⟩
  rw [respond_bm, setBm_bm, byteAt_writeBytes, if_pos (by omega), Nat.add_sub_cancel_left]

theorem packsm_image : ∃ s', exec (.packsm t n) s = .next s' ∧
    ∀ j, j < B n → Memory.byteAt s'.bm (s.ports.addr + j) =
      (low n.toNat s.ports.val).extractLsb' (8 * (B n - j - 1)) 8 := by
  obtain ⟨-, hB, -⟩ := B_fits t n hn
  obtain ⟨s', hs', himage⟩ := packSlice_image t n s hn hs hl svToMsb (svToMsb_length _ _ _ hB)
  exact ⟨s', hs', fun j hj => (himage j hj).trans (svToMsb_sized t n s hn j hj)⟩

theorem packsl_image : ∃ s', exec (.packsl t n) s = .next s' ∧
    ∀ j, j < B n → Memory.byteAt s'.bm (s.ports.addr + j) =
      (low n.toNat s.ports.val).extractLsb' (8 * j) 8 := by
  obtain ⟨-, hB, -⟩ := B_fits t n hn
  obtain ⟨s', hs', himage⟩ := packSlice_image t n s hn hs hl svToLsb (svToLsb_length _ _ _ hB)
  exact ⟨s', hs', fun j hj => (himage j hj).trans (svToLsb_sized t n s hn j hj)⟩

end pack

theorem lane_lanesOf_of_lt (a : List Byte) (j : Nat) (hj : j < 8) :
    lane (lanesOf a) j = a.getD j 0 := by
  rw [← lanesOf_getElem a j hj]
  simp [lane, List.getD_eq_getElem?_getD, hj]

/-- The lanes PACKM answers (42 R153). -/
theorem packm_lanes (t : NType) (n : BitVec 7) (s : State)
    (hn : 1 ≤ n.toNat ∧ n.toNat ≤ t.width) :
    ∃ L k, answersOk (.packm t n) s (.bytes L k) ∧
      ∀ j, j < B n → lane L j = (low n.toNat s.ports.val).extractLsb' (8 * (B n - j - 1)) 8 := by
  refine ⟨_, _, guardWidth_of_in _ _ _ _ hn, fun j hj => ?_⟩
  obtain ⟨-, -, hB8⟩ := B_fits t n hn
  rw [lane_lanesOf_of_lt _ _ (by omega), svToMsb_sized t n s hn j hj]

/-- The `k` bytes at ADDR, the ones an unpack reads. -/
def sliceBytes (s : State) (k : Nat) : List Byte :=
  (List.range k).map fun j => Memory.byteAt s.bm (s.ports.addr + j)

theorem sliceBytes_length (s : State) (k : Nat) : (sliceBytes s k).length = k := by simp [sliceBytes]

theorem sliceBytes_getD (s : State) (k j : Nat) (hj : j < k) :
    (sliceBytes s k).getD j 0 = Memory.byteAt s.bm (s.ports.addr + j) := by
  simp [sliceBytes, List.getD_eq_getElem?_getD, hj]

section unpack
variable (t : NType) (n : BitVec 7) (s : State)
  (hn : 1 ≤ n.toNat ∧ n.toNat ≤ t.width) (hs : s.ports.addr + s.ports.len ≤ s.cfg.space)
  (hl : B n ≤ s.ports.len)
include hn hs hl

/-- An unpack whose byte order gives the low `N` bits as `bits` and zeros above answers that value. -/
theorem unpackSlice_answers (f : (W N : Nat) → List Byte → BitVec W) (bits : Nat → Bool)
    (hf : ∀ i, i < t.width →
      (f t.width n.toNat (sliceBytes s (B n))).getLsbD i = (decide (i < n.toNat) && bits i)) :
    ∃ v, unpackSlice f t n s = .next (s.respond (.ok (.value v))) ∧ v.toNat < 2 ^ n.toNat ∧
      ∀ i, i < n.toNat → v.getLsbD i = bits i := by
  have hW := width_le t
  have hnext := (unpackSlice_next f t n s _).2 ⟨hn, hs, .inr ⟨hl, rfl⟩⟩
  rw [bytesFor_toNat, ← sliceBytes] at hnext
  refine ⟨_, hnext, Nat.lt_pow_two_of_testBit _ fun i hi => ?_, fun i hi => ?_⟩
  · rw [← BitVec.getLsbD, BitVec.getLsbD_setWidth]
    by_cases hiW : i < t.width
    · simp [hf i hiW, hi.not_gt]
    · rw [BitVec.getLsbD_of_ge _ i (by omega), Bool.and_false]
  · rw [BitVec.getLsbD_setWidth, hf i (by omega), decide_eq_true (by omega : i < 64),
      decide_eq_true hi, Bool.true_and, Bool.true_and]

theorem unpksm_answers : ∃ v, answersOk (.unpksm t n) s (.value v) ∧ v.toNat < 2 ^ n.toNat ∧
    ∀ i, i < n.toNat →
      v.getLsbD i = msbBit (fun j => Memory.byteAt s.bm (s.ports.addr + j)) (B n) i := by
  obtain ⟨hB1, hB, -⟩ := B_fits t n hn
  refine unpackSlice_answers t n s hn hs hl svFromMsb _ fun i hi => ?_
  rw [svFromMsb_bit _ _ hB _ _ (width_mod t) (width_le t) hi, bytesFor_toNat,
    sliceBytes_getD s _ _ (by omega), msbBit]

theorem unpksl_answers : ∃ v, answersOk (.unpksl t n) s (.value v) ∧ v.toNat < 2 ^ n.toNat ∧
    ∀ i, i < n.toNat →
      v.getLsbD i = lsbBit (fun j => Memory.byteAt s.bm (s.ports.addr + j)) i := by
  refine unpackSlice_answers t n s hn hs hl svFromLsb _ fun i hi => ?_
  rw [svFromLsb_bit _ _ _ _ (width_mod t) (width_le t) (sliceBytes_length s (B n)) hi]
  by_cases hN : i < n.toNat
  · rw [sliceBytes_getD s _ _ (by unfold B; omega), lsbBit]
  · simp [hN]

end unpack

/-! ### Which bytes a slice command accesses (20 R49) -/

theorem sameResponse_refl (x : Result) : sameResponse x x := by
  cases x
  case next => rfl
  case fault => rfl
  case refused => rfl

/-- The checks of a slice command do not read memory. -/
theorem sameResponse_guards (limit : Nat) (n : BitVec 7) (s : State) (bm : Memory) {k k' : Result}
    (h : sameResponse k k') :
    sameResponse (guardWidth limit n s (guardSlice s k))
      (guardWidth limit n { s with bm := bm } (guardSlice { s with bm := bm } k')) := by
  unfold guardWidth guardSlice
  rw [setBm_ports, setBm_cfg]
  split_ifs
  · exact h
  · exact sameResponse_refl _
  · exact sameResponse_refl _

theorem sameResponse_packSlice (f : (W N : Nat) → BitVec W → List Byte) (t : NType) (n : BitVec 7)
    (s : State) (bm : Memory) :
    sameResponse (packSlice f t n s) (packSlice f t n { s with bm := bm }) := by
  refine sameResponse_guards _ _ _ _ ?_
  unfold memWrite
  rw [setBm_ports, setBm_cfg, sizedOperand_setBm t n s bm]
  split_ifs
  · rfl
  · rfl
  · rfl

theorem sameResponse_unpackSlice (f : (W N : Nat) → List Byte → BitVec W) (t : NType) (n : BitVec 7)
    (s : State) (bm : Memory)
    (h : B n ≤ s.ports.len → ∀ j, j < B n →
      Memory.byteAt s.bm (s.ports.addr + j) = Memory.byteAt bm (s.ports.addr + j)) :
    sameResponse (unpackSlice f t n s) (unpackSlice f t n { s with bm := bm }) := by
  refine sameResponse_guards _ _ _ _ ?_
  unfold memRead
  rw [setBm_ports, setBm_cfg, setBm_bm]
  by_cases hl : s.ports.len < bytesFor n.toNat
  · rw [if_pos hl, if_pos hl]
    rfl
  · have hbytes : (List.range (bytesFor n.toNat)).map (fun j => Memory.byteAt s.bm (s.ports.addr + j))
        = (List.range (bytesFor n.toNat)).map fun j => Memory.byteAt bm (s.ports.addr + j) :=
      List.map_congr_left fun j hj => h (Nat.not_lt.1 hl) j (List.mem_range.1 hj)
    rw [if_neg hl, if_neg hl, hbytes]
    split_ifs
    · rfl
    · rfl

/-- Settles O56: the four slice commands are `packSlice` and `unpackSlice` in some byte order. -/
theorem sliceCommandsTouchTheirBytesOnly : Obligations.SliceCommandsTouchTheirBytesOnly := by
  refine ⟨fun i s s' hi h => ?_, fun i s bm hi => ?_, fun i s s' hi h => ?_, fun i s bm hi hbm => ?_⟩
  · obtain ⟨t, f, hf, hexec⟩ := exec_of_writesMemory hi
    rw [hexec] at h
    obtain ⟨hn, -, ⟨-, rfl⟩ | ⟨hl, -, rfl⟩⟩ := (packSlice_next _ _ _ _ _).1 h
    · exact ⟨rfl, rfl, rfl, .inr ⟨rfl, fun _ => rfl⟩⟩
    · obtain ⟨hB1, hB, hB8⟩ := B_fits t _ hn
      have hlen := hf t.width _ (sizedOperand t i.nfield s) hB
      refine ⟨rfl, rfl, rfl, .inl ⟨rfl, hl, hB1, hB8, ?_, fun a ha => ?_⟩⟩
      · rw [← bytesFor_toNat, ← hlen]
        exact bytesWritten_writeBytes _ _ _
      · rw [respond_bm, setBm_bm, byteAt_writeBytes, hlen]
        exact if_neg ha
  · obtain ⟨t, f, -, hexec⟩ := exec_of_writesMemory hi
    rw [hexec, hexec]
    exact sameResponse_packSlice f t _ s bm
  · obtain ⟨t, f, hexec⟩ := exec_of_readsMemory hi
    rw [hexec] at h
    obtain ⟨hn, -, hcases⟩ := (unpackSlice_next _ _ _ _ _).1 h
    obtain ⟨hB1, -, hB8⟩ := B_fits t _ hn
    obtain ⟨-, rfl⟩ | ⟨-, rfl⟩ := hcases
    · exact ⟨rfl, hB1, hB8⟩
    · exact ⟨rfl, hB1, hB8⟩
  · obtain ⟨t, f, hexec⟩ := exec_of_readsMemory hi
    rw [hexec, hexec]
    exact sameResponse_unpackSlice f t _ s bm hbm

/-! ### The images in memory (20 R44, R45) -/

/-- The padding bits of an MSB image are those of its first byte from `N - 8(B-1)` on. -/
theorem msbBit_congr (n : BitVec 7) (a a' : Nat → Byte)
    (hbytes : ∀ j, 1 ≤ j → j < B n → a j = a' j)
    (hfirst : ∀ b, b < n.toNat - 8 * (B n - 1) → (a 0).getLsbD b = (a' 0).getLsbD b)
    (i : Nat) (hi : i < n.toNat) : msbBit a (B n) i = msbBit a' (B n) i := by
  have hlt : i / 8 < B n := by unfold B; omega
  unfold msbBit
  by_cases h : i / 8 = B n - 1
  · rw [h, Nat.sub_self]
    exact hfirst _ (by omega)
  · rw [hbytes _ (by omega) (by omega)]

/-- The padding bits of an LSB image are those of its last byte from `N - 8(B-1)` on. -/
theorem lsbBit_congr (n : BitVec 7) (a a' : Nat → Byte)
    (hbytes : ∀ j, j + 1 < B n → a j = a' j)
    (hlast : ∀ b, b < n.toNat - 8 * (B n - 1) → (a (B n - 1)).getLsbD b = (a' (B n - 1)).getLsbD b)
    (i : Nat) (hi : i < n.toNat) : lsbBit a i = lsbBit a' i := by
  have hlt : i / 8 < B n := by unfold B; omega
  unfold lsbBit
  by_cases h : i / 8 = B n - 1
  · rw [h]
    exact hlast _ (by omega)
  · rw [hbytes _ (by omega)]

/-- Settles O59: the images of PACKSM and PACKM are the same slices, and the bits UNPKSM answers are no
padding bits. -/
theorem msbImageInMemory : Obligations.MsbImageInMemory := by
  intro t n s h1 hW hs hl
  have hn := And.intro h1 hW
  have hB1 : 0 < B n := (B_fits t n hn).1
  refine ⟨?_, fun bm hbytes hfirst => ?_⟩
  · obtain ⟨s', hexec, himage⟩ := packsm_image t n s hn hs hl
    obtain ⟨L, k, hL, hlanes⟩ := packm_lanes t n s hn
    refine ⟨s', hexec, himage, ?_, L, k, hL, fun j hj => (hlanes j hj).trans (himage j hj).symm⟩
    have hfirst := himage 0 hB1
    rw [Nat.add_zero] at hfirst
    rw [hfirst]
    exact extractLsb'_low_lt _ _ _ (padding_start_le n)
  · obtain ⟨v, hexec, hlt, hbits⟩ := unpksm_answers t n s hn hs hl.ge
    obtain ⟨v', hexec', hlt', hbits'⟩ := unpksm_answers t n { s with bm := bm } hn hs hl.ge
    obtain rfl : v' = v := eq_of_low_bits hlt' hlt fun i hi => by
      rw [hbits i hi, hbits' i hi]
      exact msbBit_congr n _ _ hbytes hfirst i hi
    exact ⟨v', hexec, hexec', hlt, hbits⟩

/-- Settles O60: byte `j` of the LSB image is byte `B-1-j` of the MSB image, and the bits UNPKSL answers
are no padding bits. -/
theorem lsbImageInMemory : Obligations.LsbImageInMemory := by
  intro t n s h1 hW hs hl
  have hn := And.intro h1 hW
  have hB1 : 0 < B n := (B_fits t n hn).1
  refine ⟨?_, fun bm hbytes hlast => ?_⟩
  · obtain ⟨s', hexec, himage⟩ := packsl_image t n s hn hs hl
    obtain ⟨s'', hexec', himage'⟩ := packsm_image t n s hn hs hl
    refine ⟨s', s'', hexec, hexec', himage, fun j hj => ?_, ?_⟩
    · rw [himage j hj, himage' _ (by omega), show B n - (B n - 1 - j) - 1 = j by omega]
    · rw [himage _ (by omega)]
      exact extractLsb'_low_lt _ _ _ (padding_start_le n)
  · obtain ⟨v, hexec, hlt, hbits⟩ := unpksl_answers t n s hn hs hl.ge
    obtain ⟨v', hexec', hlt', hbits'⟩ := unpksl_answers t n { s with bm := bm } hn hs hl.ge
    obtain rfl : v' = v := eq_of_low_bits hlt' hlt fun i hi => by
      rw [hbits i hi, hbits' i hi]
      exact lsbBit_congr n _ _ hbytes hlast i hi
    exact ⟨v', hexec, hexec', hlt, hbits⟩

end Sys2Proof.Slices

/-! The command word and its decoder: the fields as numbers, the rows of the opcode table, the words the
decoder accepts, and what a decoded command answers (spec 30 R70 to R83). -/

namespace Sys2Proof.Encoding
open Sys2Proof.Machine Sys2Proof.Claims Sys2Proof.Slices

/-! ### The fields of a word (30 R70, R83) -/

section fields
variable (cw : CommandWord)

theorem fieldOP_toNat : (fieldOP cw).toNat = cw.toNat % 2 ^ 8 := by
  simp [fieldOP]

theorem fieldT_toNat : (fieldT cw).toNat = cw.toNat / 2 ^ 8 % 2 ^ 4 := by
  simp [fieldT, Nat.shiftRight_eq_div_pow]

theorem fieldN_toNat : (fieldN cw).toNat = cw.toNat / 2 ^ 12 % 2 ^ 7 := by
  simp [fieldN, Nat.shiftRight_eq_div_pow]

theorem fieldZERO_toNat : (fieldZERO cw).toNat = cw.toNat / 2 ^ 19 % 2 ^ 13 := by
  simp [fieldZERO, Nat.shiftRight_eq_div_pow]

end fields

/-- The four fields cover the word: nothing else is in it. -/
theorem word_eq_iff (cw cw' : CommandWord) :
    cw = cw' ↔ fieldOP cw = fieldOP cw' ∧ fieldT cw = fieldT cw' ∧ fieldN cw = fieldN cw' ∧
      fieldZERO cw = fieldZERO cw' := by
  simp only [← BitVec.toNat_inj, fieldOP_toNat, fieldT_toNat, fieldN_toNat, fieldZERO_toNat]
  omega

section assembleWord
variable (op : BitVec 8) (c : BitVec 4) (n : BitVec 7)

/-- The three fields do not overlap, so OR-ing them is adding them. -/
theorem assembleWord_toNat :
    (assembleWord op c n).toNat = n.toNat * 2 ^ 12 + c.toNat * 2 ^ 8 + op.toNat := by
  have hTOP : c.toNat <<< 8 ||| op.toNat = c.toNat * 2 ^ 8 + op.toNat := by
    rw [← Nat.shiftLeft_add_eq_or_of_lt op.isLt, Nat.shiftLeft_eq]
  have hN : n.toNat <<< 12 ||| (c.toNat * 2 ^ 8 + op.toNat) =
      n.toNat * 2 ^ 12 + (c.toNat * 2 ^ 8 + op.toNat) := by
    rw [← Nat.shiftLeft_add_eq_or_of_lt (by omega), Nat.shiftLeft_eq]
  have hn : n.toNat <<< 12 < 2 ^ 32 := by rw [Nat.shiftLeft_eq]; omega
  have hc : c.toNat <<< 8 < 2 ^ 32 := by rw [Nat.shiftLeft_eq]; omega
  simp only [assembleWord, BitVec.toNat_or, BitVec.toNat_shiftLeft, BitVec.toNat_setWidth]
  rw [Nat.mod_eq_of_lt (a := n.toNat) (by omega), Nat.mod_eq_of_lt (a := c.toNat) (by omega),
    Nat.mod_eq_of_lt (a := op.toNat) (by omega), Nat.mod_eq_of_lt hn, Nat.mod_eq_of_lt hc,
    Nat.or_assoc, hTOP, hN, Nat.add_assoc]

@[simp] theorem fieldOP_assembleWord : fieldOP (assembleWord op c n) = op := by
  rw [← BitVec.toNat_inj, fieldOP_toNat, assembleWord_toNat]
  omega

@[simp] theorem fieldT_assembleWord : fieldT (assembleWord op c n) = c := by
  rw [← BitVec.toNat_inj, fieldT_toNat, assembleWord_toNat]
  omega

@[simp] theorem fieldN_assembleWord : fieldN (assembleWord op c n) = n := by
  rw [← BitVec.toNat_inj, fieldN_toNat, assembleWord_toNat]
  omega

@[simp] theorem fieldZERO_assembleWord : fieldZERO (assembleWord op c n) = 0 := by
  rw [← BitVec.toNat_inj, fieldZERO_toNat, assembleWord_toNat]
  exact Nat.mod_eq_zero_of_dvd ⟨0, by omega⟩

theorem assembleWord_eq_append : assembleWord op c n = (0#13 ++ n ++ c ++ op : BitVec 32) := by
  rw [← BitVec.toNat_inj, assembleWord_toNat, BitVec.toNat_append, BitVec.toNat_append,
    BitVec.toNat_append, ← Nat.shiftLeft_add_eq_or_of_lt op.isLt,
    ← Nat.shiftLeft_add_eq_or_of_lt c.isLt, ← Nat.shiftLeft_add_eq_or_of_lt n.isLt]
  simp only [Nat.shiftLeft_eq, BitVec.toNat_ofNat]
  omega

theorem assembleWord_eq_wordOf : assembleWord op c n = wordOf op.toNat c.toNat n.toNat := by
  rw [← BitVec.toNat_inj, assembleWord_toNat, wordOf, BitVec.toNat_ofNat, Nat.mod_eq_of_lt (by omega)]

end assembleWord

/-! ### The tables of opcodes and type codes (30 R71, R73, R74, R77) -/

theorem opOfCode_eq_some (c : BitVec 8) (op : Op) : Op.ofCode c = some op ↔ op.code = c := by
  constructor
  · exact fun h => by simpa using List.find?_some h
  · rintro rfl
    cases op <;> rfl

theorem typeOfCode_eq_some (c : BitVec 4) (t : NType) : NType.ofCode c = some t ↔ t.code = c := by
  constructor
  · exact fun h => by simpa using List.find?_some h
  · rintro rfl
    cases t <;> rfl

theorem typeOfCode_eq_none (c : BitVec 4) :
    NType.ofCode c = none ↔ c ∈ [0x8#4, 0x9#4, 0xC#4, 0xD#4, 0xE#4, 0xF#4] := by
  revert c; decide

theorem width_eq_shift (t : NType) : t.width = 8 <<< (t.code.extractLsb' 0 2).toNat := by
  cases t <;> rfl

section opcodes
variable (op : Op)

theorem code_mem_opcodesW : op.code ∈ opcodesW ↔ op.format = .W := by cases op <;> decide
theorem code_mem_opcodesT : op.code ∈ opcodesT ↔ op.format = .T := by cases op <;> decide
theorem code_mem_opcodesTN : op.code ∈ opcodesTN ↔ op.format = .TN := by cases op <;> decide

theorem code_mem_opcodes : op.code ∈ opcodesW ++ opcodesT ++ opcodesTN := by cases op <;> decide
theorem code_mem_opcodesTyped : op.code ∈ opcodesT ++ opcodesTN ↔ op.format ≠ .W := by
  cases op <;> decide

theorem code_mem_opcodesSlice :
    op.code ∈ opcodesSlice ↔ (op = .packsm ∨ op = .packsl) ∨ (op = .unpksm ∨ op = .unpksl) := by
  cases op <;> decide

end opcodes

/-- Outside the lists of the three formats there is no opcode. -/
theorem exists_code_of_mem_opcodes (c : BitVec 8) (h : c ∈ opcodesW ++ opcodesT ++ opcodesTN) :
    ∃ op : Op, op.code = c := by
  have hmap : opcodesW ++ opcodesT ++ opcodesTN =
      [Op.nbytes, .bitw, .mask, .ntom, .ntol, .mton, .lton, .vmask, .fromp, .packm, .packl, .unpkm,
        .unpkl, .packsm, .packsl, .unpksm, .unpksl].map Op.code := rfl
  rw [hmap] at h
  obtain ⟨op, -, hop⟩ := List.mem_map.1 h
  exact ⟨op, hop⟩

/-- Settles O6: the ten types and the sixteen codes one by one. -/
theorem typeCodesGiveTheWidths : Obligations.TypeCodesGiveTheWidths := by
  refine ⟨fun t => ⟨(typeOfCode_eq_some _ t).2 rfl, width_eq_shift t, ?_⟩, typeOfCode_eq_none, rfl, rfl,
    fun t => ?_⟩
  · cases t <;> rfl
  · cases t <;> decide

/-- Settles O7: the 17 opcodes one by one; no family nibble is above 3. -/
theorem opcodeBitsNameFamilyOrderDirection : Obligations.OpcodeBitsNameFamilyOrderDirection := by
  refine ⟨fun op => ?_, fun c hc => ?_, fun op => ?_⟩
  · cases op <;> decide
  · refine Option.eq_none_iff_forall_ne_some.2 fun op hop => ?_
    obtain rfl := (opOfCode_eq_some _ _).1 hop
    have hfamily : (op.code.extractLsb' 4 4).toNat < 4 := by cases op <;> decide
    omega
  · cases op <;> decide

/-! ### The fields of a command's word -/

theorem tcode_of_formatW (i : Instr) (h : i.op.format = .W) : i.tcode = 0 := by
  cases i
  case nbytes | bitw | mask => rfl
  all_goals cases h

theorem nfield_of_formatT (i : Instr) (h : i.op.format = .T) : i.nfield = 0 := by
  cases i
  case ntom | ntol | mton | lton => rfl
  all_goals cases h

/-- Settles O3: the word is put together from its fields. -/
theorem encodedFieldsStandInTheirPlaces : Obligations.EncodedFieldsStandInTheirPlaces := by
  refine fun i => ⟨fieldOP_assembleWord _ _ _, fieldT_assembleWord _ _ _, fieldN_assembleWord _ _ _,
    fieldZERO_assembleWord _ _ _, assembleWord_eq_append _ _ _, ?_, ?_, ?_, tcode_of_formatW i,
    nfield_of_formatT i⟩
  all_goals cases i.op <;> decide

/-! ### The decoder, field by field (30 R76 to R79) -/

theorem decodeType_formatW (c : BitVec 4) (t : NType) :
    decodeType .W c = .ok t ↔ c = 0 ∧ t = .u8 := by
  unfold decodeType
  split_ifs with hc
  · simpa [hc] using eq_comm
  · exact iff_of_false (by simp) fun h => hc h.1

theorem decodeType_typed (f : Format) (hf : f ≠ .W) (c : BitVec 4) (t : NType) :
    decodeType f c = .ok t ↔ t.code = c := by
  rw [← typeOfCode_eq_some]
  cases f
  case W => exact absurd rfl hf
  all_goals
    unfold decodeType
    cases NType.ofCode c <;> simp

theorem exists_decodeType (f : Format) (cw : CommandWord) :
    (∃ t, decodeType f (fieldT cw) = .ok t) ↔
      (f = .W → fieldT cw = 0) ∧ (f ≠ .W → ¬ typeReserved cw) := by
  by_cases hf : f = .W
  · subst hf
    simp [decodeType_formatW]
  · simp only [decodeType_typed f hf, ← typeOfCode_eq_some, typeReserved, ← typeOfCode_eq_none]
    simp [hf, Option.ne_none_iff_exists']

theorem decodeWidth_ok (op : Op) (t : NType) (n : BitVec 7) (i : Instr) :
    decodeWidth op t n = .ok i ↔ op.legalWidth t n.toNat = true ∧ op.instr t n = i := by
  unfold decodeWidth
  split_ifs with h
  · simp [h]
  · cases op.format <;> simp [h]

/-- Everything the decoder checks before it answers a command. -/
theorem decode_ok (cw : CommandWord) (i : Instr) :
    decode cw = .ok i ↔ ∃ (op : Op) (t : NType), fieldOP cw = op.code ∧ fieldZERO cw = 0 ∧
      decodeType op.format (fieldT cw) = .ok t ∧ op.legalWidth t (fieldN cw).toNat = true ∧
      op.instr t (fieldN cw) = i := by
  have hcode (op : Op) : fieldOP cw = op.code ↔ Op.ofCode (fieldOP cw) = some op := by
    rw [opOfCode_eq_some, eq_comm]
  simp only [hcode, ← decodeWidth_ok]
  unfold decode
  cases Op.ofCode (fieldOP cw) with
  | none => simp
  | some op =>
    by_cases hz : fieldZERO cw = 0#13
    · cases htype : decodeType op.format (fieldT cw) with
      | error why => simp [hz, htype]
      | ok t => simp [hz, htype]
    · simp [hz]

section instr
variable (op : Op) (t : NType) (n : BitVec 7)

@[simp] theorem op_instr : (op.instr t n).op = op := by cases op <;> rfl

theorem tcode_instr (c : BitVec 4) (h : decodeType op.format c = .ok t) :
    (op.instr t n).tcode = c := by
  cases op
  case nbytes | bitw | mask => exact ((decodeType_formatW c t).1 h).1.symm
  all_goals exact (decodeType_typed _ (by simp [Op.format]) c t).1 h

theorem nfield_instr (h : op.legalWidth t n.toNat = true) : (op.instr t n).nfield = n := by
  cases op
  case ntom | ntol | mton | lton => exact BitVec.eq_of_toNat_eq (beq_iff_eq.1 h).symm
  all_goals rfl

/-- The decoder's range check is the command's own (30 R79). -/
theorem wf_instr (h : op.legalWidth t n.toNat = true) : (op.instr t n).wf = true := by
  cases op
  case mask | ntom | ntol | mton | lton => rfl
  all_goals exact h

end instr

/-- What the decoder drops is zero in the word, so encoding gives the word back (30 R78). -/
theorem wf_and_encode_of_decode (cw : CommandWord) (i : Instr) (h : decode cw = .ok i) :
    i.wf = true ∧ encode i = cw := by
  obtain ⟨op, t, hop, hzero, htype, hwidth, rfl⟩ := (decode_ok cw i).1 h
  refine ⟨wf_instr op t _ hwidth, ?_⟩
  rw [encode, op_instr, tcode_instr op t _ _ htype, nfield_instr op t _ hwidth, word_eq_iff]
  exact ⟨(fieldOP_assembleWord _ _ _).trans hop.symm, fieldT_assembleWord _ _ _,
    fieldN_assembleWord _ _ _, (fieldZERO_assembleWord _ _ _).trans hzero.symm⟩

/-! ### The rows of the opcode table (30 R77, R81) -/

/-- What 30 R77, R78 and R79 ask of a word that selects the row of an operation. -/
structure SelectsRow (op : Op) (cw : CommandWord) : Prop where
  opcode : fieldOP cw = op.code
  reservedBits : fieldZERO cw = 0
  typeZero : op.format = .W → fieldT cw = 0
  typeLegal : op.format ≠ .W → ¬ typeReserved cw
  widthZero : op.format = .T → fieldN cw = 0
  widthInside : ¬ widthOutside cw

/-- The decoder's range check in terms of the bits of the word. -/
theorem legalWidth_iff (op : Op) (t : NType) (cw : CommandWord) (hop : fieldOP cw = op.code)
    (ht : op.format ≠ .W → t.code = fieldT cw) :
    op.legalWidth t (fieldN cw).toNat = true ↔
      (op.format = .T → fieldN cw = 0) ∧ ¬ widthOutside cw := by
  have hzero : fieldN cw = 0 ↔ (fieldN cw).toNat = 0 := by simp [← BitVec.toNat_inj]
  have hW (hf : op.format ≠ .W) : typedWidth cw = t.width := by
    rw [typedWidth, ← ht hf, width_eq_shift]
  unfold widthOutside
  rw [hop, code_mem_opcodesTN, hzero]
  cases op
  case nbytes | bitw | mask => simp [Op.legalWidth, Op.format, Op.code]
  all_goals
    rw [hW (by simp [Op.format])]
    simp [Op.legalWidth, Op.format, Op.code]

theorem decodes_iff_selectsRow (cw : CommandWord) (op : Op) :
    (∃ i, decode cw = .ok i ∧ i.op = op) ↔ SelectsRow op cw := by
  constructor
  · rintro ⟨i, hi, rfl⟩
    obtain ⟨op, t, hop, hzero, htype, hwidth, rfl⟩ := (decode_ok cw i).1 hi
    rw [op_instr]
    obtain ⟨hT0, hTlegal⟩ := (exists_decodeType _ _).1 ⟨t, htype⟩
    obtain ⟨hN0, hNin⟩ :=
      (legalWidth_iff op t cw hop fun hf => (decodeType_typed _ hf _ _).1 htype).1 hwidth
    exact ⟨hop, hzero, hT0, hTlegal, hN0, hNin⟩
  · rintro ⟨hop, hzero, hT0, hTlegal, hN0, hNin⟩
    obtain ⟨t, htype⟩ := (exists_decodeType _ _).2 ⟨hT0, hTlegal⟩
    have hwidth :=
      (legalWidth_iff op t cw hop fun hf => (decodeType_typed _ hf _ _).1 htype).2 ⟨hN0, hNin⟩
    exact ⟨_, (decode_ok cw _).2 ⟨op, t, hop, hzero, htype, hwidth, rfl⟩, op_instr op t _⟩

/-- On a word with an opcode, conditions (a) to (f) of 30 R81 are the failures of its row's. -/
theorem not_illegalWord_iff (op : Op) (cw : CommandWord) (hop : fieldOP cw = op.code) :
    ¬ IllegalWord cw ↔ SelectsRow op cw := by
  simp only [IllegalWord, hop, code_mem_opcodes, code_mem_opcodesTyped, code_mem_opcodesW,
    code_mem_opcodesT, not_or, not_and, not_not]
  constructor
  · rintro ⟨-, hzero, hT0, hTlegal, hN0, hNin⟩
    exact ⟨hop, hzero, hT0, hTlegal, hN0, hNin⟩
  · rintro ⟨-, hzero, hT0, hTlegal, hN0, hNin⟩
    exact ⟨trivial, hzero, hT0, hTlegal, hN0, hNin⟩

theorem decodes_iff_legal (cw : CommandWord) : (∃ i, decode cw = .ok i) ↔ ¬ IllegalWord cw := by
  constructor
  · rintro ⟨i, hi⟩
    have hrow := (decodes_iff_selectsRow cw i.op).1 ⟨i, hi, rfl⟩
    exact (not_illegalWord_iff _ cw hrow.opcode).2 hrow
  · intro h
    obtain ⟨op, hop⟩ := exists_code_of_mem_opcodes (fieldOP cw) (by_contra fun hc => h (.inl hc))
    obtain ⟨i, hi, -⟩ := (decodes_iff_selectsRow cw op).2 ((not_illegalWord_iff op cw hop.symm).1 h)
    exact ⟨i, hi⟩

/-- Every other word is rejected (30 R76). -/
theorem rejects_iff_illegalWord (cw : CommandWord) :
    (∃ why, decode cw = .error why) ↔ IllegalWord cw := by
  cases hd : decode cw with
  | error why =>
    refine iff_of_true ⟨why, rfl⟩ (by_contra fun hlegal => ?_)
    obtain ⟨i, hi⟩ := (decodes_iff_legal cw).2 hlegal
    cases hd.symm.trans hi
  | ok i => exact iff_of_false (fun ⟨_, h⟩ => nomatch h) ((decodes_iff_legal cw).1 ⟨i, hd⟩)

/-- Settles O2: a decoded word is the encoding of its command, and a field that must be zero and is not
is one of the conditions of 30 R81. -/
theorem encodeOfDecodeIsTheWord : Obligations.EncodeOfDecodeIsTheWord := by
  refine ⟨wf_and_encode_of_decode, fun cw cw' i h h' => ?_,
    fun cw hZERO => (rejects_iff_illegalWord cw).2 (.inr (.inl hZERO)),
    fun cw hop hT => (rejects_iff_illegalWord cw).2 (.inr (.inr (.inl ⟨hop, hT⟩))),
    fun cw hop hN => (rejects_iff_illegalWord cw).2 (.inr (.inr (.inr (.inr (.inl ⟨hop, hN⟩)))))⟩
  rw [← (wf_and_encode_of_decode cw i h).2, (wf_and_encode_of_decode cw' i h').2]

section rowMask
variable (f : Format) (cw : CommandWord)

theorem fieldOP_and_rowMask : fieldOP (cw &&& f.rowMask) = fieldOP cw := by
  refine BitVec.extractLsb'_and.trans ?_
  cases f <;> exact BitVec.and_allOnes

theorem fieldZERO_and_rowMask : fieldZERO (cw &&& f.rowMask) = fieldZERO cw := by
  refine BitVec.extractLsb'_and.trans ?_
  cases f <;> exact BitVec.and_allOnes

theorem fieldT_and_rowMask : fieldT (cw &&& f.rowMask) = if f = .W then fieldT cw else 0 := by
  refine BitVec.extractLsb'_and.trans ?_
  cases f
  case W => exact BitVec.and_allOnes
  all_goals exact BitVec.and_zero

theorem fieldN_and_rowMask : fieldN (cw &&& f.rowMask) = if f = .T then fieldN cw else 0 := by
  refine BitVec.extractLsb'_and.trans ?_
  cases f
  case T => exact BitVec.and_allOnes
  all_goals exact BitVec.and_zero

end rowMask

theorem rowMatch_eq_assembleWord (op : Op) : op.rowMatch = assembleWord op.code 0 0 := by
  simp [assembleWord, Op.rowMatch]

/-- A row's mask keeps OP, the reserved bits and the field its format does not use. -/
theorem and_rowMask_eq_rowMatch_iff (op : Op) (cw : CommandWord) :
    cw &&& op.format.rowMask = op.rowMatch ↔
      fieldOP cw = op.code ∧ fieldZERO cw = 0 ∧ (op.format = .W → fieldT cw = 0) ∧
        (op.format = .T → fieldN cw = 0) := by
  rw [word_eq_iff, rowMatch_eq_assembleWord, fieldOP_and_rowMask, fieldT_and_rowMask,
    fieldN_and_rowMask, fieldZERO_and_rowMask, fieldOP_assembleWord, fieldT_assembleWord,
    fieldN_assembleWord, fieldZERO_assembleWord]
  cases op.format <;> simp <;> tauto

/-- Settles O8: the mask and the match ask for the row's zero fields and its opcode. -/
theorem rowIsSelectedByMaskAndMatch : Obligations.RowIsSelectedByMaskAndMatch := by
  refine ⟨rfl, rfl, fun op => by cases op <;> decide, fun cw op => ?_⟩
  rw [decodes_iff_selectsRow, and_rowMask_eq_rowMatch_iff]
  constructor
  · rintro ⟨hop, hzero, hT0, hTlegal, hN0, hNin⟩
    exact ⟨⟨hop, hzero, hT0, hN0⟩, hNin, hTlegal⟩
  · rintro ⟨⟨hop, hzero, hT0, hN0⟩, hNin, hTlegal⟩
    exact ⟨hop, hzero, hT0, hTlegal, hN0, hNin⟩

/-! ### The word of a line (30 R83) -/

theorem cw_of_drive (cfg : Config) (l : AsmLine) (cw : CommandWord) (r : Request)
    (h : l.drive cfg cw = some r) : r.cw = cw := by
  unfold AsmLine.drive at h
  split at h
  case h_1 | h_2 | h_3 | h_4 =>
    cases h
    rfl
  case h_18 => cases h
  all_goals
    obtain ⟨-, h⟩ := (Option.ite_none_right_eq_some ..).1 h
    cases h
    rfl

theorem toNat_of_fields (l : AsmLine) (c : BitVec 4) (n : BitVec 7) (h : l.fields = some (c, n)) :
    c.toNat = (l.type.map fun t => t.code.toNat).getD 0 ∧ n.toNat = l.n.getD 0 := by
  unfold AsmLine.fields at h
  split at h
  case h_1 N _ htype hN =>
    obtain ⟨hlt, h⟩ := (Option.ite_none_right_eq_some ..).1 h
    cases h
    rw [htype, hN]
    exact ⟨rfl, Nat.mod_eq_of_lt hlt⟩
  case h_2 t _ htype hN =>
    cases h
    rw [htype, hN]
    exact ⟨rfl, rfl⟩
  case h_3 t N _ htype hN =>
    obtain ⟨hlt, h⟩ := (Option.ite_none_right_eq_some ..).1 h
    cases h
    rw [htype, hN]
    exact ⟨rfl, Nat.mod_eq_of_lt hlt⟩
  case h_4 => cases h

/-- Settles O4: OR-ing the fields is adding them, and a line drives CW with its word. -/
theorem assembledLineHasItsWord : Obligations.AssembledLineHasItsWord := by
  have hpacksm : assembleWord Op.packsm.code NType.u32.code 24 = 0x00018230 := by decide
  have hntol : assembleWord Op.ntol.code NType.u64.code 0 = 0x00000311 := by decide
  refine ⟨fun cfg l r h => ?_, fun v a k hv ha hk => ?_, fun v hv => ?_, _, rfl, rfl⟩
  · unfold assemble at h
    split at h
    case h_1 c n hfields =>
      obtain ⟨hc, hn⟩ := toNat_of_fields l c n hfields
      rw [cw_of_drive _ _ _ _ h, assembleWord_eq_wordOf, hc, hn]
    case h_2 => cases h
  · exact ⟨_, if_pos ⟨hv, ha, hk⟩, hpacksm, Nat.mod_eq_of_lt hv, rfl, rfl⟩
  · exact ⟨_, if_pos hv, hntol, Nat.mod_eq_of_lt hv⟩

/-! ### What a command in its range answers (30 R80, R81) -/

/-- One response is added to those of `s`, and it is `Ok` or `BufferSizeMismatch`. -/
def isLegalAnswer (s : State) (x : Result) : Prop :=
  ∃ t resp, x = .next t ∧ t.responses = s.responses ++ [resp] ∧
    (resp.status = 0 ∨ resp.status = 1)

/-- The commands that reach buffer memory (20 R41). -/
def touchesMemory (i : Instr) : Prop := writesMemory i ∨ readsMemory i

section slice
variable (t : NType) (n : BitVec 7) (s : State) (hn : 1 ≤ n.toNat ∧ n.toNat ≤ t.width)
include hn

theorem packSlice_of_wrap (f : (W N : Nat) → BitVec W → List Byte)
    (hw : s.cfg.space < s.ports.addr + s.ports.len) :
    packSlice f t n s = .refused (.illegal .sliceWrap) :=
  (guardWidth_of_in _ _ _ _ hn).trans (guardSlice_of_out _ _ hw)

theorem unpackSlice_of_wrap (f : (W N : Nat) → List Byte → BitVec W)
    (hw : s.cfg.space < s.ports.addr + s.ports.len) :
    unpackSlice f t n s = .refused (.illegal .sliceWrap) :=
  (guardWidth_of_in _ _ _ _ hn).trans (guardSlice_of_out _ _ hw)

variable (hs : s.ports.addr + s.ports.len ≤ s.cfg.space)
include hs

theorem packSlice_legal (f : (W N : Nat) → BitVec W → List Byte)
    (hf : (f t.width n.toNat (sizedOperand t n s)).length = bytesFor n.toNat) :
    isLegalAnswer s (packSlice f t n s) := by
  by_cases hl : s.ports.len = bytesFor n.toNat
  · exact ⟨_, _, (packSlice_next _ _ _ _ _).2 ⟨hn, hs, .inr ⟨hl, by omega, rfl⟩⟩, rfl, .inl rfl⟩
  · exact ⟨_, _, (packSlice_next _ _ _ _ _).2 ⟨hn, hs, .inl ⟨hl, rfl⟩⟩, rfl, .inr rfl⟩

theorem unpackSlice_legal (f : (W N : Nat) → List Byte → BitVec W) :
    isLegalAnswer s (unpackSlice f t n s) := by
  by_cases hl : s.ports.len < bytesFor n.toNat
  · exact ⟨_, _, (unpackSlice_next _ _ _ _ _).2 ⟨hn, hs, .inl ⟨hl, rfl⟩⟩, rfl, .inr rfl⟩
  · exact ⟨_, _, (unpackSlice_next _ _ _ _ _).2 ⟨hn, hs, .inr ⟨Nat.not_lt.1 hl, rfl⟩⟩, rfl, .inl rfl⟩

end slice

section exec
variable {i : Instr} (s : State) (hwf : i.wf = true)
include hwf

/-- A slice command in its range of widths refuses a slice that wraps (30 R80, R81 (g)). -/
theorem exec_of_wrap (hi : touchesMemory i) (hw : s.cfg.space < s.ports.addr + s.ports.len) :
    exec i s = .refused (.illegal .sliceWrap) := by
  cases i
  case packsm | packsl => exact packSlice_of_wrap _ _ _ ((widthIn_iff _ _).1 hwf) _ hw
  case unpksm | unpksl => exact unpackSlice_of_wrap _ _ _ ((widthIn_iff _ _).1 hwf) _ hw
  all_goals exact absurd hi (by simp [touchesMemory, writesMemory, readsMemory, Instr.op])

/-- Past the checks every command answers (30 R81). -/
theorem exec_legal (hs : touchesMemory i → s.ports.addr + s.ports.len ≤ s.cfg.space) :
    isLegalAnswer s (exec i s) := by
  cases i
  case mask | ntom | ntol | mton | lton => exact ⟨_, _, rfl, rfl, .inl rfl⟩
  case packsm t n =>
    have hn := (widthIn_iff _ _).1 hwf
    obtain ⟨-, hB, -⟩ := bytesFor_fits t _ hn
    exact packSlice_legal t n s hn (hs (.inl (.inl rfl))) _ (svToMsb_length _ _ _ hB)
  case packsl t n =>
    have hn := (widthIn_iff _ _).1 hwf
    obtain ⟨-, hB, -⟩ := bytesFor_fits t _ hn
    exact packSlice_legal t n s hn (hs (.inl (.inr rfl))) _ (svToLsb_length _ _ _ hB)
  case unpksm t n =>
    exact unpackSlice_legal t n s ((widthIn_iff _ _).1 hwf) (hs (.inr (.inl rfl))) _
  case unpksl t n =>
    exact unpackSlice_legal t n s ((widthIn_iff _ _).1 hwf) (hs (.inr (.inr rfl))) _
  all_goals
    exact ⟨_, _, guardWidth_of_in _ _ _ _ ((widthIn_iff _ _).1 hwf), rfl, .inl rfl⟩

end exec

/-- The three ways a command can end: none is a fault. -/
theorem exec_cases (i : Instr) (s : State) :
    exec i s = .refused (.illegal .widthRange) ∨
    (touchesMemory i ∧ s.cfg.space < s.ports.addr + s.ports.len ∧
      exec i s = .refused (.illegal .sliceWrap)) ∨
    isLegalAnswer s (exec i s) := by
  by_cases hwf : i.wf = true
  · by_cases hw : touchesMemory i ∧ s.cfg.space < s.ports.addr + s.ports.len
    · exact .inr (.inl ⟨hw.1, hw.2, exec_of_wrap s hwf hw.1 hw.2⟩)
    · exact .inr (.inr (exec_legal s hwf fun hi => Nat.not_lt.1 fun hlt => hw ⟨hi, hlt⟩))
  · exact .inl (exec_of_not_wf i s (Bool.not_eq_true _ ▸ hwf))

/-- A slice command that answers `Ok` passed both its checks, so its `B` bytes are inside the slice. -/
theorem bytes_inside_of_ok {i : Instr} {s t : State} {p : Payload} (hi : touchesMemory i)
    (h : exec i s = .next t) (hp : t.responses = s.responses ++ [.ok p]) :
    s.ports.addr + B i.nfield ≤ s.cfg.space := by
  obtain hi | hi := hi
  · obtain ⟨ty, f, -, hexec⟩ := exec_of_writesMemory hi
    obtain ⟨-, hs, ⟨-, rfl⟩ | ⟨hl, -, -⟩⟩ := (packSlice_next _ _ _ _ _).1 ((hexec s).symm.trans h)
    · simp at hp
    · exact (congrArg _ hl).ge.trans hs
  · obtain ⟨ty, f, hexec⟩ := exec_of_readsMemory hi
    obtain ⟨-, hs, ⟨-, rfl⟩ | ⟨hl, -⟩⟩ := (unpackSlice_next _ _ _ _ _).1 ((hexec s).symm.trans h)
    · simp at hp
    · exact (Nat.add_le_add_left hl _).trans hs

/-- Settles O20: the wrap check is the same for the four slice commands, and `exec_cases` leaves no
other way to be refused so and no fault. -/
theorem sliceNeverWrapsOrFaults : Obligations.SliceNeverWrapsOrFaults := by
  refine ⟨fun s t n h1 hW hw => ?_, fun i s h => ?_, fun i s t p h hp hi j hj => ?_, fun i s f h => ?_⟩
  · have hn := And.intro h1 hW
    exact ⟨packSlice_of_wrap t n s hn _ hw, packSlice_of_wrap t n s hn _ hw,
      unpackSlice_of_wrap t n s hn _ hw, unpackSlice_of_wrap t n s hn _ hw⟩
  · obtain h' | ⟨hi, hw, -⟩ | ⟨t, resp, h', -⟩ := exec_cases i s
    · cases h.symm.trans h'
    · exact ⟨hi, hw⟩
    · cases h.symm.trans h'
  · exact (Nat.add_lt_add_left hj _).trans_le (bytes_inside_of_ok hi h hp)
  · obtain h' | ⟨-, -, h'⟩ | ⟨t, resp, h', -⟩ := exec_cases i s
    · cases h.symm.trans h'
    · cases h.symm.trans h'
    · cases h.symm.trans h'

/-! ### Requests (30 R81) -/

theorem transaction_of_decode {s : State} {i : Instr} (h : decode s.ports.cw = .ok i) :
    transaction s = exec i s := by
  rw [transaction, h]

theorem transaction_of_error {s : State} {why : IllegalCond} (h : decode s.ports.cw = .error why) :
    transaction s = .refused (.illegal why) := by
  rw [transaction, h]
  rfl

/-- Of a request whose word decodes only condition (g) is left. -/
theorem illegalRequest_iff (cfg : Config) (r : Request) (i : Instr) (h : decode r.cw = .ok i) :
    IllegalRequest cfg r ↔ touchesMemory i ∧ cfg.space < r.addr + r.len := by
  have hop := ((decodes_iff_selectsRow r.cw i.op).1 ⟨i, h, rfl⟩).opcode
  have hlegal := (decodes_iff_legal r.cw).1 ⟨i, h⟩
  rw [IllegalRequest, hop, code_mem_opcodesSlice, or_iff_right hlegal]
  rfl

/-- Settles O10: conditions (a) to (f) are the decoder's, (g) is the slice commands' own. -/
theorem requestIsIllegalExactlyByItsBits : Obligations.RequestIsIllegalExactlyByItsBits := by
  intro s r rest h
  rw [step_command s r rest h]
  cases hd : decode r.cw with
  | error why =>
    have hword := (rejects_iff_illegalWord r.cw).1 ⟨why, hd⟩
    exact ⟨fun _ => ⟨why, transaction_of_error hd⟩, fun hlegal => absurd (.inl hword) hlegal⟩
  | ok i =>
    have hwf := (wf_and_encode_of_decode r.cw i hd).1
    rw [illegalRequest_iff s.cfg r i hd, transaction_of_decode (s := s.present r rest) hd]
    exact ⟨fun ⟨hi, hw⟩ => ⟨_, exec_of_wrap (s.present r rest) hwf hi hw⟩, fun hlegal =>
      exec_legal (s.present r rest) hwf fun hi => Nat.not_lt.1 fun hw => hlegal ⟨hi, hw⟩⟩

end Sys2Proof.Encoding

/-! Widths, byte counts and the format W commands that answer them: the words of one row of the opcode
table, `bytes_for`, NBYTES and BITW (spec 40 R100 to R102). -/

namespace Sys2Proof.WidthMetadata
open Sys2Proof.Machine Sys2Proof.Claims Sys2Proof.Encoding

/-! ### The words of one row (30 R77 to R81) -/

theorem code_injective : Function.Injective Op.code := fun op op' h =>
  Option.some_inj.1 (((opOfCode_eq_some _ op).2 h).symm.trans ((opOfCode_eq_some _ op').2 rfl))

section row
variable (op : Op) (t : NType) (n : BitVec 7)

/-- `decode_ok` for a word whose opcode is known. -/
theorem decode_ok_of_opcode {cw : CommandWord} (hop : fieldOP cw = op.code) (i : Instr) :
    decode cw = .ok i ↔ ∃ t : NType, fieldZERO cw = 0 ∧ decodeType op.format (fieldT cw) = .ok t ∧
      op.legalWidth t (fieldN cw).toNat = true ∧ op.instr t (fieldN cw) = i := by
  rw [decode_ok]
  constructor
  · rintro ⟨op', t, hop', h⟩
    obtain rfl := code_injective (hop.symm.trans hop')
    exact ⟨t, h⟩
  · exact fun ⟨t, h⟩ => ⟨op, t, hop, h⟩

theorem decode_wordOf (c : BitVec 4) (htype : decodeType op.format c = .ok t)
    (hwidth : op.legalWidth t n.toNat = true) :
    decode (wordOf op.code.toNat c.toNat n.toNat) = .ok (op.instr t n) := by
  rw [← assembleWord_eq_wordOf, decode_ok_of_opcode op (fieldOP_assembleWord _ _ _)]
  refine ⟨t, fieldZERO_assembleWord _ _ _, ?_⟩
  rw [fieldT_assembleWord, fieldN_assembleWord]
  exact ⟨htype, hwidth, rfl⟩

theorem rejects_of_not_decodes {cw : CommandWord} (h : ∀ i, decode cw ≠ .ok i) :
    ∃ why, decode cw = .error why := by
  cases hd : decode cw with
  | error why => exact ⟨why, rfl⟩
  | ok i => exact absurd hd (h i)

/-- Where the width field is a declared width, the decoder's range is the command's (30 R79). -/
theorem wf_instr_eq_legalWidth (hf : op.format ≠ .T) :
    (op.instr t n).wf = op.legalWidth t n.toNat := by
  cases op
  case ntom | ntol | mton | lton => exact absurd rfl hf
  all_goals rfl

end row

/-- A format W row from its range of widths alone; a width field is below 128, which is all that MASK's
range asks. -/
theorem encodesW_of_legalWidth (op : Op) (lo hi : Nat) (hf : op.format = .W)
    (hwidth : ∀ (t : NType) (N : Nat), N < 128 → (op.legalWidth t N = true ↔ lo ≤ N ∧ N ≤ hi)) :
    encodesW op.code.toNat (op.instr .u8) lo hi := by
  refine ⟨fun n hlo hhi => ?_, fun cw hop hbad => rejects_of_not_decodes fun i hi => ?_,
    fun n s hout => ⟨_, exec_of_not_wf _ s ?_⟩⟩
  · refine decode_wordOf op .u8 n 0 ?_ ((hwidth _ _ n.isLt).2 ⟨hlo, hhi⟩)
    rw [hf]
    exact (decodeType_formatW _ _).2 ⟨rfl, rfl⟩
  · obtain ⟨t, hzero, htype, hN, -⟩ := (decode_ok_of_opcode op (BitVec.eq_of_toNat_eq hop) i).1 hi
    rw [hf] at htype
    obtain hZERO | hT | hout := hbad
    · exact hZERO hzero
    · exact hT ((decodeType_formatW _ _).1 htype).1
    · exact hout ((hwidth _ _ (fieldN cw).isLt).1 hN)
  · rw [wf_instr_eq_legalWidth op _ n (by simp [hf]), Bool.eq_false_iff]
    exact fun h => hout ((hwidth _ _ n.isLt).1 h)

/-! ### The byte count of a width (40 R100) -/

/-- `bytes_for` rounds up: `k` bytes are enough exactly when they hold the bits. -/
theorem bytesFor_le_iff (N k : Nat) : bytesFor N ≤ k ↔ N ≤ 8 * k := by
  unfold bytesFor
  omega

theorem padding_le (N : Nat) : 8 * bytesFor N - N ≤ 7 := by
  unfold bytesFor
  omega

/-- Settles O25: `bytes_for` is the least count of bytes that holds the bits; 64 bits are the `u64` case
of the range. -/
theorem bytesForIsTheMinimalByteCount : Obligations.BytesForIsTheMinimalByteCount := by
  intro N h1 h64
  obtain ⟨hpos, -, h8⟩ := bytesFor_fits .u64 N ⟨h1, h64⟩
  exact ⟨rfl, (bytesFor_le_iff _ _).1 le_rfl, fun k => (bytesFor_le_iff _ _).2, padding_le N, hpos, h8⟩

/-! ### The two commands (40 R101, R102) -/

/-- Settles O38: the format W row with range 1 to 64; the count is at most 8, so RVAL holds it. -/
theorem nbytesAnswersTheMinimalByteCount : Obligations.NbytesAnswersTheMinimalByteCount := by
  refine ⟨encodesW_of_legalWidth .nbytes 1 64 rfl fun _ N _ => widthIn_iff 64 N,
    fun n s h1 h64 => ⟨_, guardWidth_of_in 64 n s _ ⟨h1, h64⟩, ?_⟩⟩
  obtain ⟨hpos, -, h8⟩ := bytesFor_fits .u64 n.toNat ⟨h1, h64⟩
  have hval : ((BitVec.ofNat 64 (bytesFor n.toNat)).setWidth 64).toNat = bytesFor n.toNat := by
    rw [BitVec.setWidth_eq, BitVec.toNat_ofNat, Nat.mod_eq_of_lt (by omega)]
  rw [hval]
  exact ⟨rfl, hpos, h8⟩

/-- Settles O39: the format W row with range 1 to 64; extending the width field to RVAL keeps its value. -/
theorem bitwAnswersTheWidth : Obligations.BitwAnswersTheWidth :=
  ⟨encodesW_of_legalWidth .bitw 1 64 rfl fun _ N _ => widthIn_iff 64 N,
    fun n s h1 h64 => ⟨_, guardWidth_of_in 64 n s _ ⟨h1, h64⟩,
      BitVec.toNat_setWidth_of_le (by decide)⟩⟩

end Sys2Proof.WidthMetadata

/-! The native conversion functions and the commands NTOM, NTOL, MTON and LTON: the bytes of a value, the
value of bytes, the two as inverses, and SWAP (spec 41 R120 to R131). -/

namespace Sys2Proof.NativeConversion
open Sys2Proof.Machine Sys2Proof.Claims Sys2Proof.Ports Sys2Proof.Slices Sys2Proof.Encoding
  Sys2Proof.WidthMetadata

/-! ### The bytes of a value (41 R120, R121) -/

/-- What the proofs use of a native width. -/
theorem nativeWidth_bounds {W : Nat} (hW : W ∈ [8, 16, 32, 64]) : 8 ≤ W ∧ W % 8 = 0 := by
  revert W; decide

section bytes
variable {W : Nat} (v : BitVec W)

theorem nativeToMsb_getElem? (i : Nat) (hi : i < W / 8) :
    (nativeToMsb W v)[i]? = some (v.extractLsb' (W - 8 * (i + 1)) 8) := by
  simp [nativeToMsb, hi, BitVec.setWidth_ushiftRight_eq_extractLsb]

theorem nativeToLsb_getElem? (i : Nat) (hi : i < W / 8) :
    (nativeToLsb W v)[i]? = some (v.extractLsb' (8 * i) 8) := by
  simp [nativeToLsb, hi, BitVec.setWidth_ushiftRight_eq_extractLsb]

theorem nativeToMsb_getD (i : Nat) (hi : i < W / 8) :
    (nativeToMsb W v).getD i 0 = v.extractLsb' (W - 8 * (i + 1)) 8 := by
  rw [List.getD_eq_getElem?_getD, nativeToMsb_getElem? v i hi, Option.getD_some]

theorem nativeToLsb_getD (i : Nat) (hi : i < W / 8) :
    (nativeToLsb W v).getD i 0 = v.extractLsb' (8 * i) 8 := by
  rw [List.getD_eq_getElem?_getD, nativeToLsb_getElem? v i hi, Option.getD_some]

/-- The mask `0xFF` of R120 and R121 keeps the byte that narrowing keeps. -/
theorem setWidth_and_byteMask (hW : 8 ≤ W) : (v &&& 0xFF).setWidth 8 = v.setWidth 8 := by
  have hmask : (0xFF : BitVec W).setWidth 8 = BitVec.allOnes 8 := BitVec.setWidth_ofNat_of_le hW _
  rw [BitVec.setWidth_and, hmask, BitVec.and_allOnes]

/-- A byte cut out by shift and mask is the slice. -/
theorem shiftMask_eq_slice (hW : 8 ≤ W) (k : Nat) :
    ((v >>> k) &&& 0xFF).setWidth 8 = v.extractLsb' k 8 := by
  rw [setWidth_and_byteMask _ hW, BitVec.setWidth_ushiftRight_eq_extractLsb]

theorem nativeToLsb_eq_reverse (h8 : W % 8 = 0) : nativeToLsb W v = (nativeToMsb W v).reverse := by
  refine List.ext_getElem? fun i => ?_
  by_cases hi : i < W / 8
  · rw [List.getElem?_reverse (by rwa [nativeToMsb_length]), nativeToMsb_length,
      nativeToLsb_getElem? v i hi, nativeToMsb_getElem? v _ (by omega),
      show W - 8 * (W / 8 - 1 - i + 1) = 8 * i by omega]
  · rw [List.getElem?_eq_none (by simpa using hi), List.getElem?_eq_none (by simpa using hi)]

theorem nativeToMsb_eq_reverse (h8 : W % 8 = 0) : nativeToMsb W v = (nativeToLsb W v).reverse := by
  rw [nativeToLsb_eq_reverse v h8, List.reverse_reverse]

end bytes

theorem nativeToMsb_width8 (v : BitVec 8) : nativeToMsb 8 v = [v] := by
  simp [nativeToMsb, List.range_succ]

theorem nativeToLsb_width8 (v : BitVec 8) : nativeToLsb 8 v = [v] := by
  simp [nativeToLsb, List.range_succ]

/-- Settles O26: narrowing a shifted value is taking its slice. -/
theorem nativeBytesAreTheSlices : Obligations.NativeBytesAreTheSlices := by
  intro W v hW
  obtain ⟨hW8, -⟩ := nativeWidth_bounds hW
  refine ⟨nativeToMsb_length W v, nativeToLsb_length W v, fun i hi => ?_, ?_⟩
  · rw [shiftMask_eq_slice v hW8, shiftMask_eq_slice v hW8, Nat.sub_sub, ← Nat.mul_succ]
    have hmsb := nativeToMsb_getElem? v i hi
    have hlsb := nativeToLsb_getElem? v i hi
    exact ⟨hmsb, hmsb, hlsb, hlsb⟩
  · rintro rfl
    rw [BitVec.setWidth_eq]
    exact ⟨nativeToMsb_width8 v, nativeToLsb_width8 v⟩

/-! ### The value of bytes (41 R122, R123) -/

/-- The number with the last byte highest has byte `i / 8` at bit `i`. -/
theorem foldr_bytes_testBit (a : List Byte) (i : Nat) :
    (a.foldr (fun (b : Byte) v => v * 256 + b.toNat) 0).testBit i =
      (a.getD (i / 8) 0).getLsbD (i % 8) := by
  induction a generalizing i with
  | nil => simp
  | cons b a ih =>
    rw [List.foldr_cons, Nat.mul_comm]
    refine (Nat.testBit_two_pow_mul_add _ b.isLt i).trans ?_
    by_cases hi : i < 8
    · rw [if_pos hi, Nat.div_eq_of_lt hi, Nat.mod_eq_of_lt hi, List.getD_cons_zero, BitVec.getLsbD]
    · rw [if_neg hi, ih, show i / 8 = (i - 8) / 8 + 1 by omega, List.getD_cons_succ,
        show i % 8 = (i - 8) % 8 by omega]

section value
variable {W : Nat} (a : List Byte) (h8 : W % 8 = 0) (ha : a.length = W / 8)
include h8 ha

theorem nativeFromLsb_toNat :
    (nativeFromLsb W a).toNat = a.foldr (fun b v => v * 256 + b.toNat) 0 := by
  refine Nat.eq_of_testBit_eq fun i => ?_
  rw [foldr_bytes_testBit, ← BitVec.getLsbD]
  by_cases hi : i < W
  · exact nativeFromLsb_bit W a i h8 hi
  · rw [BitVec.getLsbD_of_ge _ i (by omega), List.getD_eq_default _ _ (by omega)]
    exact BitVec.getLsbD_zero.symm

theorem nativeFromMsb_eq_reverse : nativeFromMsb W a = nativeFromLsb W a.reverse := by
  refine BitVec.eq_of_getLsbD_eq fun i hi => ?_
  rw [nativeFromMsb_bit W a i h8 hi, nativeFromLsb_bit W _ i h8 hi, List.getD_reverse _ (by omega), ha]

theorem nativeFromLsb_eq_reverse : nativeFromLsb W a = nativeFromMsb W a.reverse := by
  rw [nativeFromMsb_eq_reverse a.reverse h8 (by rwa [List.length_reverse]), List.reverse_reverse]

theorem nativeFromMsb_toNat :
    (nativeFromMsb W a).toNat = a.foldl (fun v b => v * 256 + b.toNat) 0 := by
  rw [nativeFromMsb_eq_reverse a h8 ha, nativeFromLsb_toNat _ h8 (by rwa [List.length_reverse]),
    List.foldr_reverse]

end value

/-- Settles O27: bit by bit for the LSB order; the MSB order is the same on the bytes reversed. -/
theorem nativeValueIsTheConcatenation : Obligations.NativeValueIsTheConcatenation := by
  intro W a hW ha
  obtain ⟨-, h8⟩ := nativeWidth_bounds hW
  exact ⟨nativeFromMsb_toNat a h8 ha, nativeFromLsb_toNat a h8 ha⟩

/-! ### The conversions as inverses (41 R129) -/

section inverse
variable {W : Nat} (v : BitVec W) (a : List Byte) (h8 : W % 8 = 0)
include h8

theorem nativeFromLsb_nativeToLsb : nativeFromLsb W (nativeToLsb W v) = v := by
  refine BitVec.eq_of_getLsbD_eq fun i hi => ?_
  rw [nativeFromLsb_bit W _ i h8 hi, nativeToLsb_bit W v _ _ (by omega) (by omega), Nat.div_add_mod]

theorem nativeFromMsb_nativeToMsb : nativeFromMsb W (nativeToMsb W v) = v := by
  rw [nativeFromMsb_eq_reverse _ h8 (nativeToMsb_length W v), ← nativeToLsb_eq_reverse v h8,
    nativeFromLsb_nativeToLsb v h8]

variable (ha : a.length = W / 8)
include ha

theorem nativeToLsb_nativeFromLsb : nativeToLsb W (nativeFromLsb W a) = a := by
  refine List.ext_getElem (by rw [nativeToLsb_length, ha]) fun i _ hi => ?_
  rw [← List.getD_eq_getElem _ 0, ← List.getD_eq_getElem _ 0]
  refine BitVec.eq_of_getLsbD_eq fun b hb => ?_
  rw [nativeToLsb_bit W _ i b (by omega) hb, nativeFromLsb_bit W a _ h8 (by omega),
    show (8 * i + b) / 8 = i by omega, show (8 * i + b) % 8 = b by omega]

theorem nativeToMsb_nativeFromMsb : nativeToMsb W (nativeFromMsb W a) = a := by
  rw [nativeToMsb_eq_reverse _ h8, nativeFromMsb_eq_reverse a h8 ha,
    nativeToLsb_nativeFromLsb _ h8 (by rwa [List.length_reverse]), List.reverse_reverse]

end inverse

theorem nativeFromMsb_width8 (b : Byte) : nativeFromMsb 8 [b] = b := by
  simp [nativeFromMsb, List.range_succ]

theorem nativeFromLsb_width8 (b : Byte) : nativeFromLsb 8 [b] = b := by
  simp [nativeFromLsb, List.range_succ]

/-- Settles O28: the LSB order bit by bit, and the MSB order is the LSB order on the bytes reversed. -/
theorem nativeConversionsInvert : Obligations.NativeConversionsInvert := by
  intro W v a hW ha
  obtain ⟨-, h8⟩ := nativeWidth_bounds hW
  refine ⟨nativeFromMsb_nativeToMsb v h8, nativeToMsb_nativeFromMsb a h8 ha,
    nativeFromLsb_nativeToLsb v h8, nativeToLsb_nativeFromLsb a h8 ha, nativeToLsb_eq_reverse v h8,
    nativeFromLsb_eq_reverse a h8 ha, ?_⟩
  rintro rfl
  simp only [BitVec.setWidth_eq]
  exact ⟨nativeToMsb_width8 v, nativeToLsb_width8 v,
    fun b => ⟨nativeFromMsb_width8 b, nativeFromLsb_width8 b⟩⟩

/-! ### The four commands (41 R124 to R127) -/

/-- A format T row: no range of widths, and a width field that is zero. -/
theorem encodesT_of_formatT (op : Op) (hf : op.format = .T) :
    encodesT op.code.toNat fun t => op.instr t 0 := by
  refine ⟨fun t => decode_wordOf op t 0 t.code ?_ ?_, fun cw hop hbad => ?_⟩
  · exact (decodeType_typed _ (by simp [hf]) _ _).2 rfl
  · cases op
    case ntom | ntol | mton | lton => rfl
    all_goals cases hf
  · have hT : fieldOP cw ∈ opcodesT := BitVec.eq_of_toNat_eq hop ▸ (code_mem_opcodesT op).2 hf
    refine (rejects_iff_illegalWord cw).2 ?_
    obtain hZERO | htype | hN := hbad
    · exact .inr (.inl hZERO)
    · exact .inr (.inr (.inr (.inl ⟨List.mem_append_left _ hT, htype⟩)))
    · exact .inr (.inr (.inr (.inr (.inl ⟨hT, hN⟩))))

/-- A type has at most eight bytes. -/
theorem typeBytes_le (t : NType) : t.width / 8 ≤ 8 := by
  have := width_le t
  omega

/-- Lanes answered by `respondBytes`, given each byte of the array (10 R34). -/
theorem bytesAre_lanesOf {a : List Byte} {k : Nat} (ha : a.length = k) (hk : k ≤ 8) (f : Nat → Byte)
    (hf : ∀ j, j < k → a.getD j 0 = f j) : bytesAre (lanesOf a) (BitVec.ofNat 4 a.length) k f := by
  subst ha
  refine ⟨Nat.mod_eq_of_lt (by omega), fun j hj => ?_⟩
  split_ifs with hja
  · rw [lane_lanesOf_of_lt a j hj, hf j hja]
  · exact lane_lanesOf_of_ge a j (by omega)

section operands
variable (t : NType) (s : State)

/-- A byte of the operand is the byte of VAL (10 R35). -/
theorem valOperand_slice (k : Nat) (hk : k + 8 ≤ t.width) :
    (valOperand t s).extractLsb' k 8 = s.ports.val.extractLsb' k 8 :=
  BitVec.extractLsb'_setWidth_of_le hk

/-- The operand back on a value port is VAL without the bits that are ignored (10 R35). -/
theorem valOperand_setWidth : (valOperand t s).setWidth 64 = low t.width s.ports.val := by
  refine BitVec.eq_of_getLsbD_eq fun b hb => ?_
  rw [low_bit _ _ _ hb, valOperand, BitVec.getLsbD_setWidth, BitVec.getLsbD_setWidth, decide_eq_true hb,
    Bool.true_and]

theorem byteOperand_getD (k j : Nat) (hj : j < k) :
    (byteOperand k s).getD j 0 = lane s.ports.bytes j := by
  rw [byteOperand, lane, List.getD_eq_getElem?_getD, List.getElem?_take_of_lt hj,
    List.getD_eq_getElem?_getD]

end operands

/-- Settles O43: the format T row, and the lanes are the bytes of `native_to_msb`. -/
theorem ntomAnswersTheMsbBytes : Obligations.NtomAnswersTheMsbBytes := by
  refine ⟨encodesT_of_formatT .ntom rfl, fun t s => ⟨_, _, rfl,
    bytesAre_lanesOf (nativeToMsb_length _ _) (typeBytes_le t) _ fun j hj => ?_⟩⟩
  rw [nativeToMsb_getD _ j hj, valOperand_slice t s _ (by omega)]

/-- Settles O44: the format T row, and the lanes are the bytes of `native_to_lsb`. -/
theorem ntolAnswersTheLsbBytes : Obligations.NtolAnswersTheLsbBytes := by
  refine ⟨encodesT_of_formatT .ntol rfl, fun t s => ⟨_, _, rfl,
    bytesAre_lanesOf (nativeToLsb_length _ _) (typeBytes_le t) _ fun j hj => ?_⟩⟩
  rw [nativeToLsb_getD _ j hj, valOperand_slice t s _ (by omega)]

section rval
variable {W : Nat} (x : BitVec W) (hW : W ≤ 64)
include hW

/-- The value port holds a `W`-bit result unchanged, with zeros above (10 R35). -/
theorem setWidth64_lt : (x.setWidth 64).toNat < 2 ^ W := by
  rw [BitVec.toNat_setWidth_of_le hW]
  exact x.isLt

theorem setWidth64_bit (i : Nat) : (x.setWidth 64).getLsbD i = x.getLsbD i := by
  by_cases hi : i < 64
  · rw [BitVec.getLsbD_setWidth, decide_eq_true hi, Bool.true_and]
  · rw [BitVec.getLsbD_of_ge _ i (by omega), BitVec.getLsbD_of_ge x i (by omega)]

end rval

/-- Settles O45: the format T row, and the bits of `native_from_msb`. -/
theorem mtonAnswersTheValueOfMsbBytes : Obligations.MtonAnswersTheValueOfMsbBytes := by
  refine ⟨encodesT_of_formatT .mton rfl,
    fun t s => ⟨_, rfl, setWidth64_lt _ (width_le t), fun i hi => ?_⟩⟩
  have h8 := width_mod t
  rw [setWidth64_bit _ (width_le t), nativeFromMsb_bit _ _ _ h8 hi, byteOperand_getD s _ _ (by omega),
    msbBit]

/-- Settles O46: the format T row, and the bits of `native_from_lsb`. -/
theorem ltonAnswersTheValueOfLsbBytes : Obligations.LtonAnswersTheValueOfLsbBytes := by
  refine ⟨encodesT_of_formatT .lton rfl,
    fun t s => ⟨_, rfl, setWidth64_lt _ (width_le t), fun i hi => ?_⟩⟩
  have h8 := width_mod t
  rw [setWidth64_bit _ (width_le t), nativeFromLsb_bit _ _ _ h8 hi, byteOperand_getD s _ _ (by omega),
    lsbBit]

/-! ### SWAP (41 R131) -/

/-- The value with its bytes reversed: the MSB bytes read in LSB order. -/
def swapBytes {W : Nat} (v : BitVec W) : BitVec W := nativeFromLsb W (nativeToMsb W v)

section swap
variable {W : Nat} (v : BitVec W) (h8 : W % 8 = 0)
include h8

/-- The other route: the LSB bytes read in MSB order. -/
theorem swapBytes_eq_fromMsb : swapBytes v = nativeFromMsb W (nativeToLsb W v) := by
  rw [swapBytes, nativeFromLsb_eq_reverse _ h8 (nativeToMsb_length W v), ← nativeToLsb_eq_reverse v h8]

theorem nativeToLsb_swapBytes : nativeToLsb W (swapBytes v) = nativeToMsb W v :=
  nativeToLsb_nativeFromLsb _ h8 (nativeToMsb_length W v)

theorem swapBytes_swapBytes : swapBytes (swapBytes v) = v := by
  rw [swapBytes_eq_fromMsb _ h8, nativeToLsb_swapBytes v h8, nativeFromMsb_nativeToMsb v h8]

theorem swapBytes_slice (j : Nat) (hj : j < W / 8) :
    (swapBytes v).extractLsb' (8 * j) 8 = v.extractLsb' (W - 8 * (j + 1)) 8 := by
  rw [← nativeToLsb_getD _ j hj, nativeToLsb_swapBytes v h8, nativeToMsb_getD v j hj]

end swap

theorem swapBytes_width8 {W : Nat} (hW : W = 8) (v : BitVec W) : swapBytes v = v := by
  subst hW
  rw [swapBytes, nativeToMsb_width8, nativeFromLsb_width8]

/-- A byte array on the BYTES port is read back whole. -/
theorem byteOperand_lanesOf {a : List Byte} {k : Nat} (ha : a.length = k) (hk : k ≤ 8) (s : State) :
    byteOperand k { s with ports := { s.ports with bytes := lanesOf a } } = a := by
  refine List.ext_getElem (by simpa [byteOperand, ha] using hk) fun j _ hj => ?_
  rw [← List.getD_eq_getElem _ 0, ← List.getD_eq_getElem _ 0, byteOperand_getD _ _ j (by omega)]
  exact lane_lanesOf_of_lt a j (by omega)

/-- A value of the type on the VAL port is read back whole. -/
theorem valOperand_setVal (t : NType) (s : State) (v : BitVec t.width) :
    valOperand t { s with ports := { s.ports with val := v.setWidth 64 } } = v := by
  rw [valOperand, BitVec.setWidth_setWidth_of_le _ (width_le t), BitVec.setWidth_eq]

section swapCommands
variable (t : NType) (s : State) (v : BitVec t.width)

/-- LTON on the bytes of NTOM. -/
theorem lton_ntomBytes :
    answersOk (.lton t) { s with ports := { s.ports with bytes := lanesOf (nativeToMsb t.width v) } }
      (.value ((swapBytes v).setWidth 64)) := by
  rw [answersOk, exec, execLton, byteOperand_lanesOf (nativeToMsb_length _ _) (typeBytes_le t),
    ← swapBytes, respondValue]

/-- MTON on the bytes of NTOL. -/
theorem mton_ntolBytes :
    answersOk (.mton t) { s with ports := { s.ports with bytes := lanesOf (nativeToLsb t.width v) } }
      (.value ((swapBytes v).setWidth 64)) := by
  rw [answersOk, exec, execMton, byteOperand_lanesOf (nativeToLsb_length _ _) (typeBytes_le t),
    ← swapBytes_eq_fromMsb v (width_mod t), respondValue]

end swapCommands

/-- Settles O29: both routes answer `swapBytes`, which undoes itself. -/
theorem swapReversesTheBytes : Obligations.SwapReversesTheBytes := by
  intro t s
  have h8 := width_mod t
  have hW := width_le t
  refine ⟨_, _, _, _, _, rfl, rfl, lton_ntomBytes t s _, mton_ntolBytes t s _, setWidth64_lt _ hW,
    fun j hj => ?_, fun hW8 => ?_, ?_⟩
  · rw [BitVec.extractLsb'_setWidth_of_le (by omega), swapBytes_slice _ h8 j hj,
      valOperand_slice t s _ (by omega)]
  · rw [swapBytes_width8 hW8, valOperand_setWidth, hW8]
  · refine ⟨_, _, rfl, ?_⟩
    have htwice := lton_ntomBytes t s (swapBytes (valOperand t s))
    rw [swapBytes_swapBytes _ h8, valOperand_setWidth] at htwice
    rwa [valOperand_setVal]

end Sys2Proof.NativeConversion

/-! Masks, masked sized values and their commands: `from_primitive`, the minimal byte arrays and their
values, round trips, padding, and MASK, VMASK, FROMP, PACKM, PACKL, UNPKM and UNPKL (spec 42 R140 to R160). -/

namespace Sys2Proof.MaskedValue
open Sys2Proof.Machine Sys2Proof.Claims Sys2Proof.Ports Sys2Proof.Slices Sys2Proof.Encoding
  Sys2Proof.WidthMetadata Sys2Proof.NativeConversion

/-! ### Native widths -/

theorem width_mem (t : NType) : t.width ∈ [8, 16, 32, 64] := by cases t <;> decide

theorem nativeWidth_le {W : Nat} (hW : W ∈ [8, 16, 32, 64]) : W ≤ 64 := by
  revert W; decide

/-- A declared width that fits the native width needs no more bytes than it has. -/
theorem bytesFor_le_nativeBytes {W N : Nat} (hW : W ∈ [8, 16, 32, 64]) (hN : N ≤ W) :
    bytesFor N ≤ W / 8 := by
  obtain ⟨-, h8⟩ := nativeWidth_bounds hW
  exact (bytesFor_le_iff N (W / 8)).2 (by omega)

/-! ### Masks (42 R140, R141) -/

theorem mask64_bit_of_ge {N i : Nat} (h : N ≤ i) : (mask64 N).getLsbD i = false := by
  by_cases hi : i < 64
  · rw [mask64_bit N i hi, decide_eq_false h.not_gt]
  · exact BitVec.getLsbD_of_ge _ i (by omega)

section maskW
variable {W N : Nat} (hW : W ≤ 64)
include hW

theorem maskW_eq_allOnes (hN : W ≤ N) : maskW W N = BitVec.allOnes W := by
  refine BitVec.eq_of_getLsbD_eq fun i hi => ?_
  rw [maskW_bit W N i hW hi, BitVec.getLsbD_allOnes, decide_eq_true hi, decide_eq_true (by omega)]

/-- A typed mask has the value of its bits in natural numbers. -/
theorem maskW_toNat (hN : N ≤ W) : (maskW W N).toNat = 2 ^ N - 1 := by
  have hpow : 2 ^ N ≤ 2 ^ W := Nat.pow_le_pow_right (by omega) hN
  have hpos := Nat.two_pow_pos N
  have hmask : maskW W N = BitVec.ofNat W (2 ^ N - 1) := by
    refine BitVec.eq_of_getLsbD_eq fun i hi => ?_
    rw [maskW_bit W N i hW hi, BitVec.getLsbD_ofNat, Nat.testBit_two_pow_sub_one, decide_eq_true hi,
      Bool.true_and]
  rw [hmask, BitVec.toNat_ofNat, Nat.mod_eq_of_lt (by omega)]

/-- On the value port the typed mask is the 64-bit one (42 R144). -/
theorem maskW_setWidth (hN : N ≤ W) : (maskW W N).setWidth 64 = mask64 N := by
  have hmask : maskW 64 N = mask64 N := BitVec.setWidth_eq _
  rw [← BitVec.toNat_inj, BitVec.toNat_setWidth_of_le hW, maskW_toNat hW hN, ← hmask,
    maskW_toNat le_rfl (hN.trans hW)]

end maskW

/-- Settles O30: the masks bit by bit; narrowing is taking the low slice. -/
theorem masksHaveTheirBits : Obligations.MasksHaveTheirBits := by
  refine ⟨fun N => ⟨?_, mask64_bit N⟩, fun W N hW => ?_⟩
  · simp only [mask64, Nat.lt_succ_iff]
    rfl
  · have hW64 := nativeWidth_le hW
    exact ⟨BitVec.setWidth_eq_extractLsb' hW64, fun hN => maskW_toNat hW64 hN.le,
      maskW_eq_allOnes hW64⟩

/-! ### Masked values (42 R142, R158) -/

section fromPrimitive
variable {W N : Nat} (v : BitVec W)

theorem fromPrimitive_bit_of_ge {i : Nat} (h : N ≤ i) : (fromPrimitive W N v).getLsbD i = false := by
  rw [fromPrimitive, maskW, BitVec.getLsbD_and, BitVec.getLsbD_setWidth, mask64_bit_of_ge h,
    Bool.and_false, Bool.and_false]

theorem fromPrimitive_idem : fromPrimitive W N (fromPrimitive W N v) = fromPrimitive W N v := by
  rw [fromPrimitive, fromPrimitive, BitVec.and_assoc, BitVec.and_self]

theorem fromPrimitive_full (hW : W ≤ 64) : fromPrimitive W W v = v := by
  rw [fromPrimitive, maskW_eq_allOnes hW le_rfl, BitVec.and_allOnes]

/-- A masked value on the value port has no bit at or above `N`. -/
theorem maskedRval_bit_of_ge {i : Nat} (h : N ≤ i) :
    ((fromPrimitive W N v).setWidth 64).getLsbD i = false := by
  rw [BitVec.getLsbD_setWidth, fromPrimitive_bit_of_ge v h, Bool.and_false]

theorem maskedRval_lt : ((fromPrimitive W N v).setWidth 64).toNat < 2 ^ N :=
  Nat.lt_pow_two_of_testBit _ fun _ hi => maskedRval_bit_of_ge v hi

end fromPrimitive

/-- Settles O31: the bits of the mask, and masking twice is masking once. -/
theorem fromPrimitiveKeepsTheLowBits : Obligations.FromPrimitiveKeepsTheLowBits := by
  intro W N v hW
  have hW64 := nativeWidth_le hW
  exact ⟨rfl, fun i => (fromPrimitive_bit W N v i hW64).trans (Bool.and_comm _ _),
    fromPrimitive_idem v, fromPrimitive_idem v, fromPrimitive_full v hW64⟩

/-! ### The minimal byte arrays of a value (42 R149, R150) -/

section bytes
variable {W N : Nat} (v : BitVec W)

/-- The MSB bytes are the last of the native ones. -/
theorem svToMsb_getElem?_native (j : Nat) :
    (svToMsb W N v)[j]? = (nativeToMsb W v)[W / 8 - bytesFor N + j]? := List.getElem?_drop

/-- The LSB bytes are the first of the native ones. -/
theorem svToLsb_getElem?_native (j : Nat) (hj : j < bytesFor N) :
    (svToLsb W N v)[j]? = (nativeToLsb W v)[j]? := List.getElem?_take_of_lt hj

theorem svToLsb_getElem? (hB : bytesFor N ≤ W / 8) (j : Nat) (hj : j < bytesFor N) :
    (svToLsb W N v)[j]? = some (v.extractLsb' (8 * j) 8) := by
  rw [svToLsb_getElem?_native v j hj, nativeToLsb_getElem? v j (by omega)]

/-- The LSB array is the MSB array reversed: both leave out the same native bytes (42 R160). -/
theorem svToLsb_eq_reverse (h8 : W % 8 = 0) (hB : bytesFor N ≤ W / 8) :
    svToLsb W N v = (svToMsb W N v).reverse := by
  rw [svToLsb, svToMsb, nativeToLsb_eq_reverse v h8, List.reverse_drop, nativeToMsb_length,
    Nat.sub_sub_self hB]

theorem svToMsb_getElem? (h8 : W % 8 = 0) (hB : bytesFor N ≤ W / 8) (j : Nat) (hj : j < bytesFor N) :
    (svToMsb W N v)[j]? = some (v.extractLsb' (8 * (bytesFor N - j - 1)) 8) := by
  rw [svToMsb_getElem?_native, nativeToMsb_getElem? v _ (by omega),
    show W - 8 * (W / 8 - bytesFor N + j + 1) = 8 * (bytesFor N - j - 1) by omega]

/-- At the full width no byte is left out. -/
theorem svToMsb_full (h8 : W % 8 = 0) : svToMsb W W v = nativeToMsb W v := by
  rw [svToMsb, bytesFor, show W / 8 - (W + 7) / 8 = 0 by omega, List.drop_zero]

theorem svToLsb_full (h8 : W % 8 = 0) : svToLsb W W v = nativeToLsb W v := by
  rw [svToLsb_eq_reverse v h8 (by unfold bytesFor; omega), svToMsb_full v h8,
    nativeToLsb_eq_reverse v h8]

variable (hv : fromPrimitive W N v = v)
include hv

theorem conformant_bit_of_ge {i : Nat} (h : N ≤ i) : v.getLsbD i = false := by
  rw [← hv, fromPrimitive_bit_of_ge v h]

/-- The byte at bit `k` of a conformant value has no bit at or above `N - k`. -/
theorem conformant_slice_lt (k : Nat) : (v.extractLsb' k 8).toNat < 2 ^ (N - k) := by
  refine Nat.lt_pow_two_of_testBit _ fun b hb => ?_
  rw [← BitVec.getLsbD, BitVec.getLsbD_extractLsb', conformant_bit_of_ge v hv (by omega),
    Bool.and_false]

/-- A byte of a conformant value that starts at or above `N` is zero. -/
theorem conformant_slice_eq_zero (k : Nat) (hk : N ≤ k) : v.extractLsb' k 8 = 0 := by
  have hlt := conformant_slice_lt v hv k
  rw [Nat.sub_eq_zero_of_le hk] at hlt
  exact BitVec.eq_of_toNat_eq (Nat.lt_one_iff.1 hlt)

end bytes

/-- Settles O32: the bytes are slices, and a slice of a conformant value has no bit from `N` on. -/
theorem sizedBytesAreTheSlices : Obligations.SizedBytesAreTheSlices := by
  intro W N v hW h1 hN hv
  obtain ⟨-, h8⟩ := nativeWidth_bounds hW
  have hB := bytesFor_le_nativeBytes hW hN
  have hB1 : 1 ≤ bytesFor N := by unfold bytesFor; omega
  refine ⟨svToMsb_length W N v hB, svToLsb_length W N v hB, fun j hj => ?_, fun j hj => ?_, ?_, ?_⟩
  · exact ⟨svToMsb_getElem?_native v j, svToMsb_getElem? v h8 hB j hj,
      svToLsb_getElem?_native v j hj, svToLsb_getElem? v hB j hj⟩
  · have hbits := (bytesFor_le_iff N _).1 le_rfl
    rw [nativeToMsb_getElem? v j (by omega), conformant_slice_eq_zero v hv _ (by omega)]
  · rw [List.getD_eq_getElem?_getD, svToMsb_getElem? v h8 hB 0 hB1, Option.getD_some, Nat.sub_zero]
    exact conformant_slice_lt v hv _
  · rw [List.getD_eq_getElem?_getD, svToLsb_getElem? v hB _ (by omega), Option.getD_some]
    exact conformant_slice_lt v hv _

/-! ### The value of a minimal byte array (42 R151, R152) -/

/-- Zero bytes below the last one add nothing to the number with the last byte highest. -/
theorem foldr_bytes_append_zeros (a : List Byte) (k : Nat) :
    (a ++ List.replicate k 0).foldr (fun (b : Byte) v => v * 256 + b.toNat) 0 =
      a.foldr (fun b v => v * 256 + b.toNat) 0 := by
  have hzeros : (List.replicate k 0).foldr (fun (b : Byte) v => v * 256 + b.toNat) 0 = 0 := by
    induction k with
    | zero => rfl
    | succ k ih => rw [List.replicate_succ, List.foldr_cons, ih]; rfl
  rw [List.foldr_append, hzeros]

section value
variable {W N : Nat} (a : List Byte) (hB : bytesFor N ≤ W / 8) (ha : a.length = bytesFor N)
include hB ha

/-- With its zeros on the right the array fills the native buffer (42 R152). -/
theorem lsbBuffer_length : (a ++ List.replicate (W / 8 - bytesFor N) 0).length = W / 8 := by
  rw [List.length_append, List.length_replicate]
  omega

variable (h8 : W % 8 = 0)
include h8

/-- The two orders decode the same array from its two ends (42 R160). -/
theorem svFromLsb_eq_reverse : svFromLsb W N a = svFromMsb W N a.reverse := by
  have hlen := lsbBuffer_length a hB ha
  rw [svFromLsb, svFromMsb, nativeFromLsb_eq_reverse _ h8 hlen, List.reverse_append,
    List.reverse_replicate]

theorem svFromMsb_eq_reverse : svFromMsb W N a = svFromLsb W N a.reverse := by
  rw [svFromLsb_eq_reverse a.reverse hB (by rwa [List.length_reverse]) h8, List.reverse_reverse]

theorem svFromLsb_eq_concatenation :
    svFromLsb W N a =
      fromPrimitive W N (BitVec.ofNat W (a.foldr (fun b v => v * 256 + b.toNat) 0)) := by
  have hlen := lsbBuffer_length a hB ha
  rw [← foldr_bytes_append_zeros a (W / 8 - bytesFor N), ← nativeFromLsb_toNat _ h8 hlen,
    BitVec.ofNat_toNat, BitVec.setWidth_eq, svFromLsb]

theorem svFromMsb_eq_concatenation :
    svFromMsb W N a =
      fromPrimitive W N (BitVec.ofNat W (a.foldl (fun v b => v * 256 + b.toNat) 0)) := by
  rw [svFromMsb_eq_reverse a hB ha h8,
    svFromLsb_eq_concatenation _ hB (by rwa [List.length_reverse]) h8, List.foldr_reverse]

end value

/-- Settles O33: the zeros change no digit of the LSB number; the MSB order is the LSB order reversed. -/
theorem sizedValueIsTheMaskedConcatenation : Obligations.SizedValueIsTheMaskedConcatenation := by
  intro W N a hW h1 hN ha
  obtain ⟨-, h8⟩ := nativeWidth_bounds hW
  have hB := bytesFor_le_nativeBytes hW hN
  exact ⟨rfl, svFromMsb_eq_concatenation a hB ha h8, rfl, svFromLsb_eq_concatenation a hB ha h8⟩

/-- Settles O37: for arrays and values alike. -/
theorem lsbIsMsbReversedForEveryWidth : Obligations.LsbIsMsbReversedForEveryWidth := by
  intro W N v a hW h1 hN hv ha
  obtain ⟨-, h8⟩ := nativeWidth_bounds hW
  have hB := bytesFor_le_nativeBytes hW hN
  exact ⟨svToLsb_eq_reverse v h8 hB, svFromLsb_eq_reverse a hB ha h8⟩

/-- At the full width no zero byte is added and no bit is masked. -/
theorem svFromMsb_full {W : Nat} (hW : W ∈ [8, 16, 32, 64]) (a : List Byte) :
    svFromMsb W W a = nativeFromMsb W a := by
  obtain ⟨-, h8⟩ := nativeWidth_bounds hW
  rw [svFromMsb, fromPrimitive_full _ (nativeWidth_le hW), bytesFor,
    show W / 8 - (W + 7) / 8 = 0 by omega, List.replicate_zero, List.nil_append]

theorem svFromLsb_full {W : Nat} (hW : W ∈ [8, 16, 32, 64]) (a : List Byte) :
    svFromLsb W W a = nativeFromLsb W a := by
  obtain ⟨-, h8⟩ := nativeWidth_bounds hW
  rw [svFromLsb, fromPrimitive_full _ (nativeWidth_le hW), bytesFor,
    show W / 8 - (W + 7) / 8 = 0 by omega, List.replicate_zero, List.append_nil]

/-! ### Round trips (42 R157, R159) -/

section roundTrip
variable {W N : Nat} (hW : W ∈ [8, 16, 32, 64]) (hN : N ≤ W) (v : BitVec W)
include hW hN

theorem svFromLsb_svToLsb : svFromLsb W N (svToLsb W N v) = fromPrimitive W N v := by
  obtain ⟨-, h8⟩ := nativeWidth_bounds hW
  have hW64 := nativeWidth_le hW
  have hB := bytesFor_le_nativeBytes hW hN
  refine BitVec.eq_of_getLsbD_eq fun i hi => ?_
  rw [svFromLsb_bit W N _ i h8 hW64 (svToLsb_length W N v hB) hi, fromPrimitive_bit W N v i hW64]
  by_cases hiN : i < N
  · rw [svToLsb_bit W N hB v _ _ (by unfold bytesFor; omega) (Nat.mod_lt _ (by omega)),
      Nat.div_add_mod]
  · rw [decide_eq_false hiN, Bool.false_and, Bool.false_and]

theorem svFromMsb_svToMsb : svFromMsb W N (svToMsb W N v) = fromPrimitive W N v := by
  obtain ⟨-, h8⟩ := nativeWidth_bounds hW
  have hB := bytesFor_le_nativeBytes hW hN
  rw [svFromMsb_eq_reverse _ hB (svToMsb_length W N v hB) h8, ← svToLsb_eq_reverse v h8 hB,
    svFromLsb_svToLsb hW hN]

end roundTrip

/-- Byte arrays with the same bits are the same. -/
theorem bytes_ext {a a' : List Byte} (hlen : a.length = a'.length)
    (h : ∀ j b, j < a.length → b < 8 → (a.getD j 0).getLsbD b = (a'.getD j 0).getLsbD b) :
    a = a' := by
  refine List.ext_getElem hlen fun j hj hj' => ?_
  rw [← List.getD_eq_getElem _ 0, ← List.getD_eq_getElem _ 0]
  exact BitVec.eq_of_getLsbD_eq fun b hb => h j b hj hb

section padding
variable (n : BitVec 7) (a : List Byte)

@[simp] theorem clearPadding_length (j : Nat) : (clearPadding n j a).length = a.length :=
  List.length_modify _ _ _

theorem and_lowMask_bit (x : Byte) (k b : Nat) :
    (x &&& BitVec.ofNat 8 (2 ^ k - 1)).getLsbD b = (x.getLsbD b && decide (b < k)) := by
  rw [BitVec.getLsbD_and, BitVec.getLsbD_ofNat, Nat.testBit_two_pow_sub_one]
  by_cases hb : b < 8
  · rw [decide_eq_true hb, Bool.true_and]
  · rw [BitVec.getLsbD_of_ge x b (by omega), Bool.false_and, Bool.false_and]

theorem and_lowMask_eq_self_iff (x : Byte) (k : Nat) :
    x &&& BitVec.ofNat 8 (2 ^ k - 1) = x ↔ x.toNat < 2 ^ k := by
  constructor
  · intro h
    refine Nat.lt_pow_two_of_testBit _ fun b hb => ?_
    rw [← h, ← BitVec.getLsbD, and_lowMask_bit, decide_eq_false hb.not_gt, Bool.and_false]
  · intro h
    refine BitVec.eq_of_getLsbD_eq fun b _ => ?_
    rw [and_lowMask_bit]
    by_cases hb : b < k
    · rw [decide_eq_true hb, Bool.and_true]
    · have hpow : 2 ^ k ≤ 2 ^ b := Nat.pow_le_pow_right (by omega) (by omega)
      rw [BitVec.getLsbD, Nat.testBit_lt_two_pow (h.trans_le hpow), Bool.false_and]

/-- Clearing the padding of byte `j` clears its bits from `N - 8(B-1)` on and no others. -/
theorem clearPadding_bit (j k b : Nat) :
    ((clearPadding n j a).getD k 0).getLsbD b =
      ((a.getD k 0).getLsbD b && decide (j = k → b < n.toNat - 8 * (B n - 1))) := by
  rw [clearPadding, List.getD_eq_getElem?_getD, List.getD_eq_getElem?_getD, List.getElem?_modify]
  cases a[k]? with
  | none => simp
  | some x =>
    by_cases hjk : j = k
    · simp [hjk, and_lowMask_bit, -BitVec.getLsbD_and]
    · simp [hjk]

theorem clearPadding_first_eq_self_iff (ha : a ≠ []) :
    clearPadding n 0 a = a ↔ (a.getD 0 0).toNat < 2 ^ (n.toNat - 8 * (B n - 1)) := by
  obtain ⟨x, xs, rfl⟩ := List.exists_cons_of_ne_nil ha
  rw [clearPadding, List.modify_zero_cons, List.cons_eq_cons, List.getD_cons_zero,
    and_lowMask_eq_self_iff]
  simp

variable {W : Nat} (hW : W ∈ [8, 16, 32, 64]) (hN : n.toNat ≤ W) (ha : a.length = B n)
include hW hN

theorem svFromMsb_clearPadding :
    svFromMsb W n.toNat (clearPadding n 0 a) = svFromMsb W n.toNat a := by
  obtain ⟨-, h8⟩ := nativeWidth_bounds hW
  have hW64 := nativeWidth_le hW
  have hB := bytesFor_le_nativeBytes hW hN
  refine BitVec.eq_of_getLsbD_eq fun i hi => ?_
  rw [svFromMsb_bit W _ hB _ i h8 hW64 hi, svFromMsb_bit W _ hB _ i h8 hW64 hi,
    clearPadding_bit n a, bytesFor_toNat]
  by_cases hiN : i < n.toNat
  · rw [decide_eq_true (p := _ → _) (by unfold B; omega), Bool.and_true]
  · rw [decide_eq_false hiN, Bool.false_and, Bool.false_and]

include ha

omit hN in
theorem svFromLsb_clearPadding :
    svFromLsb W n.toNat (clearPadding n (B n - 1) a) = svFromLsb W n.toNat a := by
  obtain ⟨-, h8⟩ := nativeWidth_bounds hW
  have hW64 := nativeWidth_le hW
  refine BitVec.eq_of_getLsbD_eq fun i hi => ?_
  rw [svFromLsb_bit W _ _ i h8 hW64 ((clearPadding_length n a _).trans ha) hi,
    svFromLsb_bit W _ a i h8 hW64 ha hi, clearPadding_bit n a]
  by_cases hiN : i < n.toNat
  · rw [decide_eq_true (p := _ → _) (by unfold B; omega), Bool.and_true]
  · rw [decide_eq_false hiN, Bool.false_and, Bool.false_and]

theorem svToMsb_svFromMsb :
    svToMsb W n.toNat (svFromMsb W n.toNat a) = clearPadding n 0 a := by
  obtain ⟨-, h8⟩ := nativeWidth_bounds hW
  have hB : B n ≤ W / 8 := bytesFor_le_nativeBytes hW hN
  have hlen := svToMsb_length W n.toNat (svFromMsb W n.toNat a) hB
  refine bytes_ext (by rw [hlen, clearPadding_length, ha, bytesFor_toNat]) fun j b hj hb => ?_
  rw [hlen, bytesFor_toNat] at hj
  rw [svToMsb_bit W _ hB _ j b h8 hj hb, svFromMsb_bit W _ hB a _ h8 (nativeWidth_le hW)
      (by rw [bytesFor_toNat]; omega),
    clearPadding_bit n a, bytesFor_toNat,
    show B n - 1 - (8 * (B n - j - 1) + b) / 8 = j by omega,
    show (8 * (B n - j - 1) + b) % 8 = b by omega, Bool.and_comm,
    decide_eq_decide.2 (show 8 * (B n - j - 1) + b < n.toNat ↔ (0 = j → b < n.toNat - 8 * (B n - 1))
      by unfold B at *; omega)]

theorem svToLsb_svFromLsb :
    svToLsb W n.toNat (svFromLsb W n.toNat a) = clearPadding n (B n - 1) a := by
  obtain ⟨-, h8⟩ := nativeWidth_bounds hW
  have hB : B n ≤ W / 8 := bytesFor_le_nativeBytes hW hN
  have hlen := svToLsb_length W n.toNat (svFromLsb W n.toNat a) hB
  refine bytes_ext (by rw [hlen, clearPadding_length, ha, bytesFor_toNat]) fun j b hj hb => ?_
  rw [hlen, bytesFor_toNat] at hj
  rw [svToLsb_bit W _ hB _ j b hj hb, svFromLsb_bit W _ a _ h8 (nativeWidth_le hW) ha (by omega),
    clearPadding_bit n a, show (8 * j + b) / 8 = j by omega,
    show (8 * j + b) % 8 = b by omega, Bool.and_comm,
    decide_eq_decide.2 (show 8 * j + b < n.toNat ↔ (B n - 1 = j → b < n.toNat - 8 * (B n - 1))
      by unfold B at *; omega)]

end padding

/-- Settles O36: the bits of the cleared array are those the decode keeps. -/
theorem paddingBitsAreDiscarded : Obligations.PaddingBitsAreDiscarded := by
  intro W n a hW h1 hN ha
  have hne : a ≠ [] := by
    rintro rfl
    have hB : B n = 0 := ha.symm
    unfold B at hB
    omega
  exact ⟨(svFromMsb_clearPadding n a hW hN).symm, (svFromLsb_clearPadding n a hW ha).symm,
    svToMsb_svFromMsb n a hW hN ha, svToLsb_svFromLsb n a hW hN ha,
    clearPadding_first_eq_self_iff n a hne⟩

/-! ### The mask commands and FROMP (42 R143, R144, R146) -/

/-- A format TN row: its range of widths is 1 to `W`, in the decoder and in the command (30 R79). -/
theorem encodesTN_of_formatTN (op : Op) (hf : op.format = .TN) :
    encodesTN op.code.toNat op.instr := by
  have hwidth (t : NType) (N : Nat) : op.legalWidth t N = widthIn t.width N := by
    cases op
    case vmask | fromp | packm | packl | unpkm | unpkl | packsm | packsl | unpksm | unpksl => rfl
    all_goals cases hf
  refine ⟨fun t n h1 hW => ?_, fun cw hop hbad => ?_, fun t n s hout => ⟨_, exec_of_not_wf _ s ?_⟩⟩
  · refine decode_wordOf op t n t.code ((decodeType_typed _ (by simp [hf]) _ _).2 rfl) ?_
    rw [hwidth]
    exact (widthIn_iff _ _).2 ⟨h1, hW⟩
  · have hTN : fieldOP cw ∈ opcodesTN := BitVec.eq_of_toNat_eq hop ▸ (code_mem_opcodesTN op).2 hf
    refine (rejects_iff_illegalWord cw).2 ?_
    obtain hZERO | htype | hN := hbad
    · exact .inr (.inl hZERO)
    · exact .inr (.inr (.inr (.inl ⟨List.mem_append_right _ hTN, htype⟩)))
    · exact .inr (.inr (.inr (.inr (.inr (.inr ⟨hTN, hN⟩)))))
  · rw [wf_instr_eq_legalWidth op t n (by simp [hf]), hwidth, Bool.eq_false_iff]
    exact fun h => hout ((widthIn_iff _ _).1 h)

/-- Settles O40: the format W row with every width of the field, and the bits of `mask64`. -/
theorem maskAnswersTheMask : Obligations.MaskAnswersTheMask := by
  refine ⟨encodesW_of_legalWidth .mask 0 127 rfl fun _ N hN => iff_of_true rfl ⟨by omega, by omega⟩,
    fun n s => ⟨_, rfl, fun i hi => ?_, fun hn => ?_⟩⟩
  · rw [BitVec.setWidth_eq]
    exact mask64_bit _ i hi
  · have hmask : maskW 64 n.toNat = BitVec.allOnes 64 := maskW_eq_allOnes le_rfl hn
    rw [BitVec.setWidth_eq, ← BitVec.setWidth_eq (mask64 n.toNat)]
    exact hmask

/-- Settles O41: the format TN row, and within the range the two masks agree. -/
theorem vmaskAnswersTheTypedMask : Obligations.VmaskAnswersTheTypedMask := by
  refine ⟨encodesTN_of_formatTN .vmask rfl,
    fun t n s h1 hN => ⟨_, guardWidth_of_in _ n s _ ⟨h1, hN⟩, ?_, ?_⟩⟩
  · rw [BitVec.toNat_setWidth_of_le (width_le t), maskW_toNat (width_le t) hN]
  · rw [maskW_setWidth (width_le t) hN, answersOk, exec, execMask, respondValue, BitVec.setWidth_eq]

/-- The masked operand on the value port is the low `N` bits of VAL. -/
theorem sizedOperand_setWidth (t : NType) (n : BitVec 7) (s : State) (hN : n.toNat ≤ t.width) :
    (sizedOperand t n s).setWidth 64 = low n.toNat s.ports.val := by
  refine eq_of_low_bits (maskedRval_lt _) (low_lt _ _) fun i hi => ?_
  rw [setWidth64_bit _ (width_le t), sizedOperand_bit t n s i (by omega)]

theorem fromp_answers (t : NType) (n : BitVec 7) (s : State) (hn : 1 ≤ n.toNat ∧ n.toNat ≤ t.width) :
    answersOk (.fromp t n) s (.value (low n.toNat s.ports.val)) := by
  rw [← sizedOperand_setWidth t n s hn.2]
  exact guardWidth_of_in _ n s _ hn

/-- Settles O42: the format TN row, and the masked operand. -/
theorem frompMasksTheValue : Obligations.FrompMasksTheValue :=
  ⟨encodesTN_of_formatTN .fromp rfl, fun t n s h1 hN => fromp_answers t n s ⟨h1, hN⟩⟩

/-! ### PACKM and PACKL (42 R153, R154) -/

section pack
variable (t : NType) (n : BitVec 7) (s : State)

theorem sizedOperand_full (h : n.toNat = t.width) : sizedOperand t n s = valOperand t s := by
  rw [sizedOperand, h, fromPrimitive_full _ (width_le t)]

variable (hn : 1 ≤ n.toNat ∧ n.toNat ≤ t.width)
include hn

/-- The bytes PACKM answers are the slices of the masked value, the highest first. -/
theorem packm_bytesAre : ∃ L k, answersOk (.packm t n) s (.bytes L k) ∧
    (bytesAre L k (B n) fun j => (low n.toNat s.ports.val).extractLsb' (8 * (B n - j - 1)) 8) ∧
    (n.toNat = t.width → answersOk (.ntom t) s (.bytes L k)) := by
  obtain ⟨-, hB, hB8⟩ := B_fits t n hn
  refine ⟨_, _, guardWidth_of_in _ n s _ hn,
    bytesAre_lanesOf (svToMsb_length _ _ _ hB) hB8 _ (svToMsb_sized t n s hn), fun hfull => ?_⟩
  rw [sizedOperand_full t n s hfull, hfull, svToMsb_full _ (width_mod t), answersOk, exec, execNtom,
    respondBytes]

/-- The bytes PACKL answers are the slices of the masked value, the lowest first. -/
theorem packl_bytesAre : ∃ L k, answersOk (.packl t n) s (.bytes L k) ∧
    (bytesAre L k (B n) fun j => (low n.toNat s.ports.val).extractLsb' (8 * j) 8) ∧
    (n.toNat = t.width → answersOk (.ntol t) s (.bytes L k)) := by
  obtain ⟨-, hB, hB8⟩ := B_fits t n hn
  refine ⟨_, _, guardWidth_of_in _ n s _ hn,
    bytesAre_lanesOf (svToLsb_length _ _ _ hB) hB8 _ (svToLsb_sized t n s hn), fun hfull => ?_⟩
  rw [sizedOperand_full t n s hfull, hfull, svToLsb_full _ (width_mod t), answersOk, exec, execNtol,
    respondBytes]

end pack

/-- Settles O47: the format TN row, and the slices of the masked value. -/
theorem packmAnswersTheMinimalMsbBytes : Obligations.PackmAnswersTheMinimalMsbBytes :=
  ⟨encodesTN_of_formatTN .packm rfl, fun t n s h1 hN => packm_bytesAre t n s ⟨h1, hN⟩⟩

/-- Settles O48: the format TN row, and the slices of the masked value. -/
theorem packlAnswersTheMinimalLsbBytes : Obligations.PacklAnswersTheMinimalLsbBytes :=
  ⟨encodesTN_of_formatTN .packl rfl, fun t n s h1 hN => packl_bytesAre t n s ⟨h1, hN⟩⟩

/-! ### UNPKM and UNPKL (42 R155, R156) -/

section unpack
variable (t : NType) (n : BitVec 7) (s : State)

theorem byteOperand_length (k : Nat) (hk : k ≤ 8) : (byteOperand k s).length = k := by
  simpa [byteOperand] using hk

theorem bytesFor_full (h : n.toNat = t.width) : bytesFor n.toNat = t.width / 8 := by
  have h8 := width_mod t
  unfold bytesFor
  omega

end unpack

/-- Settles O49: the format TN row, and bit `i` of the masked value is the lanes' bit `i` below `N`. -/
theorem unpkmAnswersTheMaskedValue : Obligations.UnpkmAnswersTheMaskedValue := by
  refine ⟨encodesTN_of_formatTN .unpkm rfl, fun t n s h1 hN =>
    ⟨_, guardWidth_of_in _ n s _ ⟨h1, hN⟩, maskedRval_lt _, fun i hi => ?_, fun hfull => ?_⟩⟩
  · obtain ⟨hB1, hB, -⟩ := B_fits t n ⟨h1, hN⟩
    rw [setWidth64_bit _ (width_le t),
      svFromMsb_bit _ _ hB _ i (width_mod t) (width_le t) (by omega), bytesFor_toNat,
      byteOperand_getD s _ _ (by omega), decide_eq_true hi, Bool.true_and, msbBit]
  · rw [bytesFor_full t n hfull, hfull, svFromMsb_full (width_mem t), answersOk, exec, execMton,
      respondValue]

/-- Settles O50: the format TN row, and bit `i` of the masked value is the lanes' bit `i` below `N`. -/
theorem unpklAnswersTheMaskedValue : Obligations.UnpklAnswersTheMaskedValue := by
  refine ⟨encodesTN_of_formatTN .unpkl rfl, fun t n s h1 hN =>
    ⟨_, guardWidth_of_in _ n s _ ⟨h1, hN⟩, maskedRval_lt _, fun i hi => ?_, fun hfull => ?_⟩⟩
  · obtain ⟨-, -, hB8⟩ := B_fits t n ⟨h1, hN⟩
    rw [setWidth64_bit _ (width_le t), svFromLsb_bit _ _ _ i (width_mod t) (width_le t)
        (byteOperand_length s _ hB8) (by omega),
      byteOperand_getD s _ _ (by unfold bytesFor; omega), decide_eq_true hi, Bool.true_and, lsbBit]
  · rw [bytesFor_full t n hfull, hfull, svFromLsb_full (width_mem t), answersOk, exec, execLton,
      respondValue]

/-- Settles O34: the lanes of a pack are read back whole, and the functions invert on a masked value. -/
theorem packThenUnpackIsTheMaskedValue : Obligations.PackThenUnpackIsTheMaskedValue := by
  refine ⟨fun W N v hW _ hN => ?_, fun t n s h1 hN => ?_⟩
  · rw [svFromMsb_svToMsb hW hN, svFromLsb_svToLsb hW hN, fromPrimitive_idem]
    exact ⟨rfl, rfl⟩
  · have hn := And.intro h1 hN
    have hW := width_mem t
    obtain ⟨-, hB, hB8⟩ := bytesFor_fits t n.toNat hn
    refine ⟨_, _, _, _, _, guardWidth_of_in _ n s _ hn, guardWidth_of_in _ n s _ hn, ?_,
      guardWidth_of_in _ n s _ hn, ?_⟩
    · refine (guardWidth_of_in _ n _ _ hn).trans ?_
      rw [byteOperand_lanesOf (svToMsb_length _ _ _ hB) hB8, svFromMsb_svToMsb hW hN, sizedOperand,
        fromPrimitive_idem, respondValue]
    · refine (guardWidth_of_in _ n _ _ hn).trans ?_
      rw [byteOperand_lanesOf (svToLsb_length _ _ _ hB) hB8, svFromLsb_svToLsb hW hN, sizedOperand,
        fromPrimitive_idem, respondValue]

/-! ### Values returned are conformant (42 R158) -/

theorem low_bit_of_ge {N b : Nat} (v : Word) (h : N ≤ b) : (low N v).getLsbD b = false :=
  Nat.testBit_lt_two_pow ((low_lt N v).trans_le (Nat.pow_le_pow_right (by omega) h))

/-- The bits of an MSB array whose bytes are the slices of a value are the value's. -/
theorem msbBit_of_slices {a : Nat → Byte} {k b : Nat} {x : Word} (hb : b < 8 * k)
    (ha : ∀ j, j < k → a j = x.extractLsb' (8 * (k - j - 1)) 8) : msbBit a k b = x.getLsbD b := by
  rw [msbBit, ha _ (by omega), BitVec.getLsbD_extractLsb', decide_eq_true (Nat.mod_lt _ (by omega)),
    Bool.true_and, show 8 * (k - (k - 1 - b / 8) - 1) + b % 8 = b by omega]

/-- The bits of an LSB array whose bytes are the slices of a value are the value's. -/
theorem lsbBit_of_slices {a : Nat → Byte} {k b : Nat} {x : Word} (hb : b < 8 * k)
    (ha : ∀ j, j < k → a j = x.extractLsb' (8 * j) 8) : lsbBit a b = x.getLsbD b := by
  rw [lsbBit, ha _ (by omega), BitVec.getLsbD_extractLsb', decide_eq_true (Nat.mod_lt _ (by omega)),
    Bool.true_and, Nat.div_add_mod]

theorem lane_of_bytesAre {L : Lanes} {r : BitVec 4} {k : Nat} {f : Nat → Byte}
    (h : bytesAre L r k f) (hk : k ≤ 8) (j : Nat) (hj : j < k) : lane L j = f j :=
  (h.2 j (by omega)).trans (if_pos hj)

section answers
variable {s s' : State}

/-- A command answers one payload. -/
theorem payload_unique {i : Instr} {p q : Payload} (hq : answersOk i s q) (h : exec i s = .next s')
    (hp : s'.responses = s.responses ++ [.ok p]) : q = p := by
  cases hq.symm.trans h
  simpa using hp

theorem conformant_of_respondValue {W N : Nat} (x : BitVec W) {v : Word}
    (h : respondValue (fromPrimitive W N x) s = .next s')
    (hv : s'.responses = s.responses ++ [.ok (.value v)]) (b : Nat) (hb : N ≤ b) :
    v.getLsbD b = false := by
  cases h
  obtain rfl : (fromPrimitive W N x).setWidth 64 = v := by simpa using hv
  exact maskedRval_bit_of_ge x hb

theorem conformant_of_guardedValue {W N limit : Nat} {n : BitVec 7} (x : BitVec W) {v : Word}
    (h : guardWidth limit n s (respondValue (fromPrimitive W N x) s) = .next s')
    (hv : s'.responses = s.responses ++ [.ok (.value v)]) (b : Nat) (hb : N ≤ b) :
    v.getLsbD b = false :=
  conformant_of_respondValue x ((guardWidth_next _ _ _ _ _).1 h).2 hv b hb

/-- An unpack from a slice whose byte order masks its value answers a conformant one. -/
theorem conformant_of_unpackSlice {f : (W N : Nat) → List Byte → BitVec W} {t : NType} {n : BitVec 7}
    {v : Word} (hf : ∀ W N a, ∃ x, f W N a = fromPrimitive W N x)
    (h : unpackSlice f t n s = .next s') (hv : s'.responses = s.responses ++ [.ok (.value v)])
    (b : Nat) (hb : n.toNat ≤ b) : v.getLsbD b = false := by
  obtain ⟨-, -, ⟨-, rfl⟩ | ⟨-, rfl⟩⟩ := (unpackSlice_next _ _ _ _ _).1 h
  · simp at hv
  · obtain ⟨x, hx⟩ := hf t.width n.toNat
      ((List.range (bytesFor n.toNat)).map fun j => Memory.byteAt s.bm (s.ports.addr + j))
    rw [hx] at hv
    exact conformant_of_respondValue x rfl hv b hb

/-- A pack to a slice that answers `Ok` passed its three checks. -/
theorem packSlice_checks_of_ok {f : (W N : Nat) → BitVec W → List Byte} {t : NType} {n : BitVec 7}
    (h : packSlice f t n s = .next s') (hok : s'.responses = s.responses ++ [.ok .nothing]) :
    (1 ≤ n.toNat ∧ n.toNat ≤ t.width) ∧ s.ports.addr + s.ports.len ≤ s.cfg.space ∧
      s.ports.len = B n := by
  obtain ⟨hn, hs, ⟨-, rfl⟩ | ⟨hl, -, -⟩⟩ := (packSlice_next _ _ _ _ _).1 h
  · simp at hok
  · exact ⟨hn, hs, hl⟩

end answers

/-- Settles O35: a value answered is a masked one, and the bytes of a pack are slices of a masked one. -/
theorem returnedValuesAreConformant : Obligations.ReturnedValuesAreConformant := by
  refine ⟨fun W N v i h => fromPrimitive_bit_of_ge v h, fun t n s s' v i hi h hv => ?_,
    fun t n s s' L k => ⟨fun h hL b hNb hb => ?_, fun h hL b hNb hb => ?_⟩,
    fun t n s s' => ⟨fun h hok b hNb hb => ?_, fun h hok b hNb hb => ?_⟩⟩
  · simp only [List.mem_cons, List.not_mem_nil, or_false] at hi
    obtain rfl | rfl | rfl | rfl | rfl := hi
    · exact conformant_of_guardedValue _ h hv
    · exact conformant_of_guardedValue _ h hv
    · exact conformant_of_guardedValue _ h hv
    · exact conformant_of_unpackSlice (f := svFromMsb) (fun _ _ _ => ⟨_, rfl⟩) h hv
    · exact conformant_of_unpackSlice (f := svFromLsb) (fun _ _ _ => ⟨_, rfl⟩) h hv
  · obtain ⟨hn, -⟩ := (guardWidth_next _ _ _ _ _).1 h
    obtain ⟨-, -, hB8⟩ := B_fits t n hn
    obtain ⟨L', k', hexec, hbytes, -⟩ := packm_bytesAre t n s hn
    cases payload_unique hexec h hL
    rw [msbBit_of_slices hb (lane_of_bytesAre hbytes hB8), low_bit_of_ge _ hNb]
  · obtain ⟨hn, -⟩ := (guardWidth_next _ _ _ _ _).1 h
    obtain ⟨-, -, hB8⟩ := B_fits t n hn
    obtain ⟨L', k', hexec, hbytes, -⟩ := packl_bytesAre t n s hn
    cases payload_unique hexec h hL
    rw [lsbBit_of_slices hb (lane_of_bytesAre hbytes hB8), low_bit_of_ge _ hNb]
  · obtain ⟨hn, hs, hl⟩ := packSlice_checks_of_ok h hok
    obtain ⟨s'', hexec, himage⟩ := packsm_image t n s hn hs hl
    cases hexec.symm.trans h
    rw [msbBit_of_slices hb himage, low_bit_of_ge _ hNb]
  · obtain ⟨hn, hs, hl⟩ := packSlice_checks_of_ok h hok
    obtain ⟨s'', hexec, himage⟩ := packsl_image t n s hn hs hl
    cases hexec.symm.trans h
    rw [lsbBit_of_slices hb himage, low_bit_of_ge _ hNb]

end Sys2Proof.MaskedValue

/-! The slice commands PACKSM, PACKSL, UNPKSM and UNPKSL: what each answers and writes, and unpacking
what a pack wrote (spec 43 R174 to R180). -/

namespace Sys2Proof.PackAdaptors
open Sys2Proof.Machine Sys2Proof.Claims Sys2Proof.Slices Sys2Proof.Encoding Sys2Proof.MaskedValue

/-! ### The size check and the write, in either byte order (43 R174 to R178) -/

section slice
variable {t : NType} {n : BitVec 7} {s : State} {i : Instr}
  (hn : 1 ≤ n.toNat ∧ n.toNat ≤ t.width) (hs : s.ports.addr + s.ports.len ≤ s.cfg.space)
include hn hs

/-- A pack needs a slice of exactly `B` bytes. -/
theorem answersMismatch_of_packSlice {f : (W N : Nat) → BitVec W → List Byte}
    (hi : exec i s = packSlice f t n s) (hl : s.ports.len ≠ B n) :
    answersMismatch i s (B n) s.ports.len :=
  hi.trans ((packSlice_next _ _ _ _ _).2 ⟨hn, hs, .inl ⟨hl, rfl⟩⟩)

/-- An unpack needs a slice of at least `B` bytes. -/
theorem answersMismatch_of_unpackSlice {f : (W N : Nat) → List Byte → BitVec W}
    (hi : exec i s = unpackSlice f t n s) (hl : s.ports.len < B n) :
    answersMismatch i s (B n) s.ports.len :=
  hi.trans ((unpackSlice_next _ _ _ _ _).2 ⟨hn, hs, .inl ⟨hl, rfl⟩⟩)

/-- A pack to a slice of exactly `B` bytes writes the bytes of its order there and nothing else. -/
theorem writesSlice_of_packSlice {f : (W N : Nat) → BitVec W → List Byte} {g : Nat → Byte}
    (hi : exec i s = packSlice f t n s) (hl : s.ports.len = B n)
    (hlen : (f t.width n.toNat (sizedOperand t n s)).length = B n)
    (hg : ∀ j, j < B n → (f t.width n.toNat (sizedOperand t n s)).getD j 0 = g j) :
    writesSlice i s (B n) g := by
  have hnext := hi.trans ((packSlice_next _ _ _ _ _).2 ⟨hn, hs, .inr ⟨hl, by omega, rfl⟩⟩)
  refine ⟨_, hnext, rfl, rfl, rfl, rfl, fun a => ?_⟩
  rw [respond_bm, setBm_bm, byteAt_writeBytes, hlen]
  by_cases ha : s.ports.addr ≤ a ∧ a < s.ports.addr + B n
  · rw [if_pos ha, if_pos ha, hg _ (by omega)]
  · rw [if_neg ha, if_neg ha]

end slice

/-- Settles O51: the format TN row, and the bytes written are the slices of the masked value. -/
theorem packsmWritesTheMsbBytes : Obligations.PacksmWritesTheMsbBytes := by
  refine ⟨encodesTN_of_formatTN .packsm rfl, fun t n s h1 hN => ?_⟩
  have hn := And.intro h1 hN
  obtain ⟨-, hB, -⟩ := B_fits t n hn
  exact ⟨fun hw => ⟨_, packSlice_of_wrap t n s hn _ hw⟩,
    fun hs => answersMismatch_of_packSlice hn hs rfl,
    fun hs hl => writesSlice_of_packSlice hn hs rfl hl (svToMsb_length _ _ _ hB)
      (svToMsb_sized t n s hn)⟩

/-- Settles O52: the format TN row, and the bytes written are the slices of the masked value. -/
theorem packslWritesTheLsbBytes : Obligations.PackslWritesTheLsbBytes := by
  refine ⟨encodesTN_of_formatTN .packsl rfl, fun t n s h1 hN => ?_⟩
  have hn := And.intro h1 hN
  obtain ⟨-, hB, -⟩ := B_fits t n hn
  exact ⟨fun hw => ⟨_, packSlice_of_wrap t n s hn _ hw⟩,
    fun hs => answersMismatch_of_packSlice hn hs rfl,
    fun hs hl => writesSlice_of_packSlice hn hs rfl hl (svToLsb_length _ _ _ hB)
      (svToLsb_sized t n s hn)⟩

/-- Settles O53: the format TN row, and the value of the `B` bytes whatever the slice holds above. -/
theorem unpksmAnswersTheMaskedValue : Obligations.UnpksmAnswersTheMaskedValue := by
  refine ⟨encodesTN_of_formatTN .unpksm rfl, fun t n s h1 hN => ?_⟩
  have hn := And.intro h1 hN
  exact ⟨fun hw => ⟨_, unpackSlice_of_wrap t n s hn _ hw⟩,
    fun hs => answersMismatch_of_unpackSlice hn hs rfl, unpksm_answers t n s hn⟩

/-- Settles O54: the format TN row, and the value of the `B` bytes whatever the slice holds above. -/
theorem unpkslAnswersTheMaskedValue : Obligations.UnpkslAnswersTheMaskedValue := by
  refine ⟨encodesTN_of_formatTN .unpksl rfl, fun t n s h1 hN => ?_⟩
  have hn := And.intro h1 hN
  exact ⟨fun hw => ⟨_, unpackSlice_of_wrap t n s hn _ hw⟩,
    fun hs => answersMismatch_of_unpackSlice hn hs rfl, unpksl_answers t n s hn⟩

/-! ### Unpacking a known image (43 R180) -/

section image
variable {t : NType} {n : BitVec 7} {s : State} {f : Nat → Byte}
  (hn : 1 ≤ n.toNat ∧ n.toNat ≤ t.width) (hs : s.ports.addr + s.ports.len ≤ s.cfg.space)
  (hl : B n ≤ s.ports.len)
  (hf : ∀ j, j < B n → Memory.byteAt s.bm (s.ports.addr + j) = f j)
include hn hs hl hf

theorem unpksm_of_image : ∃ v, answersOk (.unpksm t n) s (.value v) ∧ v.toNat < 2 ^ n.toNat ∧
    ∀ i, i < n.toNat → v.getLsbD i = msbBit f (B n) i := by
  obtain ⟨v, hv, hlt, hbits⟩ := unpksm_answers t n s hn hs hl
  refine ⟨v, hv, hlt, fun i hi => (hbits i hi).trans ?_⟩
  rw [msbBit, hf _ (by unfold B; omega), msbBit]

theorem unpksl_of_image : ∃ v, answersOk (.unpksl t n) s (.value v) ∧ v.toNat < 2 ^ n.toNat ∧
    ∀ i, i < n.toNat → v.getLsbD i = lsbBit f i := by
  obtain ⟨v, hv, hlt, hbits⟩ := unpksl_answers t n s hn hs hl
  refine ⟨v, hv, hlt, fun i hi => (hbits i hi).trans ?_⟩
  rw [lsbBit, hf _ (by unfold B; omega), lsbBit]

end image

section slices
variable {t : NType} {n : BitVec 7} {s : State} {x : Word}
  (hn : 1 ≤ n.toNat ∧ n.toNat ≤ t.width) (hs : s.ports.addr + s.ports.len ≤ s.cfg.space)
  (hl : B n ≤ s.ports.len)
include hn hs hl

/-- UNPKSM of the MSB image of a masked value answers that value. -/
theorem unpksm_of_msbSlices (hx : ∀ j, j < B n → Memory.byteAt s.bm (s.ports.addr + j) =
      (low n.toNat x).extractLsb' (8 * (B n - j - 1)) 8) :
    answersOk (.unpksm t n) s (.value (low n.toNat x)) := by
  obtain ⟨v, hv, hlt, hbits⟩ := unpksm_answers t n s hn hs hl
  obtain rfl : v = low n.toNat x := eq_of_low_bits hlt (low_lt _ _) fun i hi =>
    (hbits i hi).trans (msbBit_of_slices (by unfold B; omega) hx)
  exact hv

/-- UNPKSL of the LSB image of a masked value answers that value. -/
theorem unpksl_of_lsbSlices (hx : ∀ j, j < B n → Memory.byteAt s.bm (s.ports.addr + j) =
      (low n.toNat x).extractLsb' (8 * j) 8) :
    answersOk (.unpksl t n) s (.value (low n.toNat x)) := by
  obtain ⟨v, hv, hlt, hbits⟩ := unpksl_answers t n s hn hs hl
  obtain rfl : v = low n.toNat x := eq_of_low_bits hlt (low_lt _ _) fun i hi =>
    (hbits i hi).trans (lsbBit_of_slices (by unfold B; omega) hx)
  exact hv

end slices

/-- Settles O58: the bytes the unpack reads are the ones the pack wrote, the image of its order. -/
theorem sliceRoundTrip : Obligations.SliceRoundTrip := by
  intro t n s s1 s2 h1 hN hl hs _ haddr hl2 hs2 hbytes
  have hn := And.intro h1 hN
  rw [← haddr] at hbytes
  refine ⟨fun hpack => ?_, fun hpack => ?_⟩
  · obtain ⟨s', hexec, himage⟩ := packsm_image t n s hn hs hl
    cases hexec.symm.trans hpack
    rw [← haddr] at himage
    have hread := fun j hj => (hbytes j hj).trans (himage j hj)
    exact ⟨unpksm_of_msbSlices hn hs2 hl2 hread, unpksl_of_image hn hs2 hl2 hread⟩
  · obtain ⟨s', hexec, himage⟩ := packsl_image t n s hn hs hl
    cases hexec.symm.trans hpack
    rw [← haddr] at himage
    have hread := fun j hj => (hbytes j hj).trans (himage j hj)
    exact ⟨unpksl_of_lsbSlices hn hs2 hl2 hread, unpksm_of_image hn hs2 hl2 hread⟩

end Sys2Proof.PackAdaptors

/-! The two errors of the unit, STATUS 1 and STATUS 2: when each is answered, in which order they are
checked, and that neither has another effect (spec 60 R200 to R206). -/

namespace Sys2Proof.Exceptions
open Sys2Proof.Machine Sys2Proof.Claims Sys2Proof.Slices Sys2Proof.Encoding

/-! ### The size check of a command (60 R200, R201) -/

/-- The slice is the wrong size for the command: not exactly `B` for a pack, too short for an unpack. -/
def sizeWrong (i : Instr) (s : State) : Prop :=
  (writesMemory i ∧ s.ports.len ≠ B i.nfield) ∨ (readsMemory i ∧ s.ports.len < B i.nfield)

theorem not_writesMemory_of_readsMemory {i : Instr} (h : readsMemory i) : ¬ writesMemory i := by
  obtain h | h := h <;> simp [writesMemory, h]

section sizeWrong
variable {i : Instr} {s : State}

theorem sizeWrong_of_writesMemory (h : writesMemory i) : sizeWrong i s ↔ s.ports.len ≠ B i.nfield := by
  have hr : ¬ readsMemory i := fun hr => not_writesMemory_of_readsMemory hr h
  simp [sizeWrong, h, hr]

theorem sizeWrong_of_readsMemory (h : readsMemory i) : sizeWrong i s ↔ s.ports.len < B i.nfield := by
  simp [sizeWrong, h, not_writesMemory_of_readsMemory h]

theorem touchesMemory_of_sizeWrong (h : sizeWrong i s) : touchesMemory i :=
  h.imp And.left And.left

theorem len_ne_of_sizeWrong (h : sizeWrong i s) : s.ports.len ≠ B i.nfield := by
  obtain ⟨-, hl⟩ | ⟨-, hl⟩ := h
  · exact hl
  · exact hl.ne

end sizeWrong

/-- BufferSizeMismatch with EXPECTED `B` and ACTUAL LEN, and nothing else changed. -/
def mismatchState (i : Instr) (s : State) : State :=
  s.respond (.bufferSizeMismatch (B i.nfield) s.ports.len)

/-- A command that does not reach memory has no error but `Illegal`. -/
theorem ok_of_not_touchesMemory {i : Instr} {s t : State} (hi : ¬ touchesMemory i)
    (h : exec i s = .next t) : ∃ p, t.responses = s.responses ++ [.ok p] := by
  cases i
  case mask | ntom | ntol | mton | lton =>
    cases h
    exact ⟨_, rfl⟩
  case packsm | packsl => exact absurd (.inl (by simp [writesMemory, Instr.op])) hi
  case unpksm | unpksl => exact absurd (.inr (by simp [readsMemory, Instr.op])) hi
  all_goals
    obtain ⟨-, h⟩ := (guardWidth_next _ _ _ _ _).1 h
    cases h
    exact ⟨_, rfl⟩

/-- What a command that is not refused answers is settled by the size check alone. -/
theorem exec_sizeCheck {i : Instr} {s t : State} (h : exec i s = .next t) :
    (sizeWrong i s ∧ (1 ≤ B i.nfield ∧ B i.nfield ≤ 8) ∧ t = mismatchState i s) ∨
    (¬ sizeWrong i s ∧ ∃ p, t.responses = s.responses ++ [.ok p]) := by
  by_cases hi : touchesMemory i
  · obtain hi | hi := hi
    · obtain ⟨ty, f, -, hexec⟩ := exec_of_writesMemory hi
      obtain ⟨hn, -, hcases⟩ := (packSlice_next _ _ _ _ _).1 ((hexec s).symm.trans h)
      obtain ⟨hB1, -, hB8⟩ := B_fits ty _ hn
      rw [sizeWrong_of_writesMemory hi]
      obtain ⟨hl, ht⟩ | ⟨hl, -, rfl⟩ := hcases
      · exact .inl ⟨hl, ⟨hB1, hB8⟩, ht⟩
      · exact .inr ⟨not_not.2 hl, _, rfl⟩
    · obtain ⟨ty, f, hexec⟩ := exec_of_readsMemory hi
      obtain ⟨hn, -, hcases⟩ := (unpackSlice_next _ _ _ _ _).1 ((hexec s).symm.trans h)
      obtain ⟨hB1, -, hB8⟩ := B_fits ty _ hn
      rw [sizeWrong_of_readsMemory hi]
      obtain ⟨hl, ht⟩ | ⟨hl, rfl⟩ := hcases
      · exact .inl ⟨hl, ⟨hB1, hB8⟩, ht⟩
      · exact .inr ⟨Nat.not_lt.2 hl, _, rfl⟩
  · exact .inr ⟨fun hw => hi (touchesMemory_of_sizeWrong hw), ok_of_not_touchesMemory hi h⟩

/-- A next state that records BufferSizeMismatch is the one the size check leads to. -/
theorem sizeWrong_of_mismatch {i : Instr} {s t : State} {e a : Nat} (h : exec i s = .next t)
    (hm : t.responses = s.responses ++ [.bufferSizeMismatch e a]) :
    sizeWrong i s ∧ (1 ≤ B i.nfield ∧ B i.nfield ≤ 8) ∧ t = mismatchState i s ∧
      e = B i.nfield ∧ a = s.ports.len := by
  obtain ⟨hw, hB, rfl⟩ | ⟨-, p, hp⟩ := exec_sizeCheck h
  · have hea : B i.nfield = e ∧ s.ports.len = a := by simpa [mismatchState] using hm
    exact ⟨hw, hB, rfl, hea.1.symm, hea.2.symm⟩
  · simp [hp] at hm

/-- Settles O57: `exec_sizeCheck` leaves BufferSizeMismatch to the slices of the wrong size. -/
theorem mismatchExactlyWhenTheSizeIsWrong : Obligations.MismatchExactlyWhenTheSizeIsWrong := by
  refine ⟨fun i s t e a h => ⟨fun hm => ?_, fun ⟨hw, he, ha⟩ => ?_⟩, fun i s t e a h hm => ?_,
    fun _ _ => ⟨rfl, rfl, rfl⟩, fun _ => ⟨rfl, rfl⟩, rfl, rfl⟩
  · obtain ⟨hw, -, -, he, ha⟩ := sizeWrong_of_mismatch h hm
    exact ⟨hw, he, ha⟩
  · obtain ⟨-, -, rfl⟩ | ⟨hright, -⟩ := exec_sizeCheck h
    · rw [he, ha]
      rfl
    · exact absurd hw hright
  · obtain ⟨hw, ⟨hB1, hB8⟩, ht, rfl, rfl⟩ := sizeWrong_of_mismatch h hm
    exact ⟨hB1, hB8, len_ne_of_sizeWrong hw, fun hi => (sizeWrong_of_readsMemory hi).1 hw, ht⟩

/-! ### The checks of a request, in order (60 R203, R206) -/

theorem code_mem_packSlice (op : Op) :
    op.code ∈ [0x30#8, 0x31#8] ↔ op = .packsm ∨ op = .packsl := by cases op <;> decide

theorem code_mem_unpackSlice (op : Op) :
    op.code ∈ [0x32#8, 0x33#8] ↔ op = .unpksm ∨ op = .unpksl := by cases op <;> decide

/-- The minimal byte count of a request is that of the command its word decodes to. -/
theorem requestBytes_of_decode {r : Request} {i : Instr} (h : decode r.cw = .ok i) :
    requestBytes r = B i.nfield := by
  have hn : fieldN r.cw = i.nfield := by
    rw [← (wf_and_encode_of_decode r.cw i h).2]
    exact fieldN_assembleWord _ _ _
  rw [requestBytes, hn, B]

/-- The size check on the bits of a request is that of the command its word decodes to. -/
theorem sizeMismatch_iff {r : Request} {i : Instr} (h : decode r.cw = .ok i) (s : State)
    (rest : List HostAction) : SizeMismatch r ↔ sizeWrong i (s.present r rest) := by
  have hop := ((decodes_iff_selectsRow r.cw i.op).1 ⟨i, h, rfl⟩).opcode
  rw [SizeMismatch, requestBytes_of_decode h, hop, code_mem_packSlice, code_mem_unpackSlice]
  rfl

/-- A legal request runs the command of its word, and is answered. -/
theorem legal_request_runs {s : State} {r : Request} {rest : List HostAction}
    (hp : s.pending = .command r :: rest) (hlegal : ¬ IllegalRequest s.cfg r) :
    ∃ i t, decode r.cw = .ok i ∧ exec i (s.present r rest) = .next t ∧ step s = .next t := by
  obtain ⟨i, hi⟩ := (decodes_iff_legal r.cw).2 fun hword => hlegal (.inl hword)
  obtain ⟨t, -, ht, -⟩ := (requestIsIllegalExactlyByItsBits s r rest hp).2 hlegal
  have hstep : step s = exec i (s.present r rest) :=
    (step_command s r rest hp).trans (transaction_of_decode hi)
  exact ⟨i, t, hi, hstep.symm.trans ht, ht⟩

/-- Settles O12: illegal requests by the bits (O10), the rest by the size check. -/
theorem checksInOrder : Obligations.ChecksInOrder := by
  intro s r rest hp
  refine ⟨(requestIsIllegalExactlyByItsBits s r rest hp).1, fun hlegal hsize => ?_,
    fun hlegal hsize => ?_⟩
  all_goals
    obtain ⟨i, t, hi, hexec, hstep⟩ := legal_request_runs hp hlegal
    rw [sizeMismatch_iff hi s rest] at hsize
  · obtain ⟨-, -, rfl⟩ | ⟨hright, -⟩ := exec_sizeCheck hexec
    · rw [hstep, requestBytes_of_decode hi]
      rfl
    · exact absurd hsize hright
  · obtain ⟨hwrong, -⟩ | ⟨-, p, ht⟩ := exec_sizeCheck hexec
    · exact absurd hwrong hsize
    · exact ⟨t, p, hstep, ht⟩

theorem transact_of_refused {cfg : Config} {bm : Memory} {r : Request} {why : Refusal}
    (h : transaction ⟨cfg, bm, r, [], []⟩ = .refused why) : transact cfg bm r = (bm, .illegal) := by
  rw [transact, h]

/-- Settles O11: the unit's answer is the transaction of a step with nothing else pending, which is
refused. -/
theorem illegalRequestHasNoEffect : Obligations.IllegalRequestHasNoEffect := by
  intro cfg bm r hr
  refine ⟨?_, rfl, ⟨rfl, rfl, rfl, rfl, rfl⟩, fun s rest hcfg hp => ?_⟩
  · obtain ⟨why, hwhy⟩ := (requestIsIllegalExactlyByItsBits ⟨cfg, bm, r, [.command r], []⟩ r [] rfl).1 hr
    exact transact_of_refused hwhy
  · subst hcfg
    exact (requestIsIllegalExactlyByItsBits s r rest hp).1 hr

end Sys2Proof.Exceptions

/-! Decoding inverts encoding on the commands of 30 R79, and words written out bit by bit (spec 30 R70 to
R83). -/

namespace Sys2Proof.DecodeEncode
open Sys2Proof.Machine Sys2Proof.Claims Sys2Proof.Encoding

/-- The type the decoder settles on: the command's own, with `u8` standing in for format W. -/
def decodedType (i : Instr) : NType := (typeOf i).getD .u8

/-- A command is made of its operation and the two fields its word carries. -/
theorem instr_op_nfield (i : Instr) : i.op.instr (decodedType i) i.nfield = i := by cases i <;> rfl

theorem decodeType_tcode (i : Instr) : decodeType i.op.format i.tcode = .ok (decodedType i) := by
  cases i
  case nbytes | bitw | mask => rfl
  all_goals exact (decodeType_typed _ (by simp [Op.format, Instr.op]) _ _).2 rfl

/-- The command's range of widths is the decoder's own (30 R79). -/
theorem legalWidth_of_wf (i : Instr) (h : i.wf = true) :
    i.op.legalWidth (decodedType i) i.nfield.toNat = true := by
  cases i
  case mask | ntom | ntol | mton | lton => rfl
  all_goals exact h

/-- Settles O1: the encoded word passes each of the decoder's checks, and its fields are the command's. -/
theorem decodeOfEncodeIsTheCommand : Obligations.DecodeOfEncodeIsTheCommand := by
  intro i hwf
  refine (decode_ok _ _).2 ⟨i.op, decodedType i, fieldOP_assembleWord _ _ _,
    fieldZERO_assembleWord _ _ _, ?_⟩
  rw [encode, fieldT_assembleWord, fieldN_assembleWord]
  exact ⟨decodeType_tcode i, legalWidth_of_wf i hwf, instr_op_nfield i⟩

/-- Settles O9: the decoder run on each word; it is executable, so each line holds by evaluation. -/
theorem sampleWordsDecode : Obligations.SampleWordsDecode :=
  ⟨rfl, rfl, rfl, rfl, rfl, rfl, rfl, rfl, rfl⟩

end Sys2Proof.DecodeEncode

/-! One step by the action it takes: the equation of each action, and what a command leaves as it is
(spec 10 R27 to R33, 20 R41, 70 R230). -/

namespace Sys2Proof.Steps
open Sys2Proof.Machine Sys2Proof.Claims Sys2Proof.Slices Sys2Proof.Encoding

/-! ### The step at each action -/

section action
variable (s : State) {rest : List HostAction}

theorem step_idle (h : s.pending = []) : step s = .next s := by
  rw [step, h]

theorem step_reset (h : s.pending = .reset :: rest) : step s = .next { s with pending := rest } := by
  rw [step, h]
  rfl

theorem step_store {a : Nat} {b : Byte} (h : s.pending = .store a b :: rest) :
    step s = hostStore a b { s with pending := rest } := by
  rw [step, h]

/-- Everything the host's write can do. -/
theorem hostStore_of_in {a : Nat} (b : Byte) (ha : a < s.cfg.space) :
    hostStore a b s = .next { s with bm := Memory.writeBytes s.bm a [b] } := by
  rw [hostStore, (memWrite_ok s _ a [b]).2 ⟨ha, rfl⟩]

theorem hostStore_of_out {a : Nat} (b : Byte) (ha : s.cfg.space ≤ a) :
    hostStore a b s = .fault (.noSuchAddress a) := by
  have hout : ¬ a + [b].length ≤ s.cfg.space := Nat.not_le.2 (Nat.lt_succ_of_le ha)
  rw [hostStore, memWrite, if_neg hout, Nat.max_eq_left ha]

end action

/-- Settles O13: `step_command` and the decoder's answer. -/
theorem stepRunsDecodedCommand : Obligations.StepRunsDecodedCommand := by
  intro s r rest i hp hi
  rw [step_command s r rest hp, transaction_of_decode (s := s.present r rest) hi]
  rfl

/-- Settles O14, by `step_reset`. -/
theorem hostResetChangesNothing : Obligations.HostResetChangesNothing :=
  ⟨fun s _ h => step_reset s h, fun s _ h => ⟨_, step_reset s h, rfl, rfl, rfl⟩⟩

/-- Settles O15: the write is of a run of one byte, which contains its own address only. -/
theorem hostStoreWritesItsByte : Obligations.HostStoreWritesItsByte := by
  intro s a b rest hp
  rw [step_store s hp]
  refine ⟨fun ha => ⟨_, hostStore_of_in _ b ha, rfl, rfl, rfl, rfl, fun x => ?_⟩,
    fun ha => hostStore_of_out _ b ha⟩
  have hx : a ≤ x ∧ x < a + 1 ↔ x = a := by omega
  rw [setBm_bm, byteAt_writeBytes, List.length_singleton]
  by_cases h : x = a
  · rw [if_pos (hx.2 h), if_pos h, h, Nat.sub_self]
    rfl
  · rw [if_neg (mt hx.1 h), if_neg h]

/-- Settles O16, by `step_idle`. -/
theorem idleUnitStays : Obligations.IdleUnitStays := step_idle

/-- Settles O17: no host action is pending after reset, so the step is the idle one. -/
theorem resetState : Obligations.ResetState :=
  ⟨rfl, rfl, rfl, rfl, fun _ => rfl, fun _ => rfl, step_idle _ rfl⟩

/-! ### What a command leaves as it is (20 R41) -/

section frame
variable {i : Instr} {s t : State}

/-- Of the cases of `exec_next` only a pack to a slice does more than respond. -/
theorem exists_respond_of_not_writesMemory (hi : ¬ writesMemory i) (h : exec i s = .next t) :
    ∃ p, t = s.respond p := by
  obtain hp | ⟨ty, n, f, ⟨rfl, -⟩ | ⟨rfl, -⟩, -⟩ := exec_next i s t h
  · exact hp
  · exact absurd (.inl rfl) hi
  · exact absurd (.inr rfl) hi

/-- Every command adds one response and changes no more than buffer memory. -/
theorem exec_frame (h : exec i s = .next t) : ∃ m p, t = State.respond { s with bm := m } p := by
  obtain ⟨p, rfl⟩ | ⟨ty, n, f, -, -, -, rfl⟩ := exec_next i s t h
  · exact ⟨s.bm, p, rfl⟩
  · exact ⟨_, _, rfl⟩

end frame

/-- Settles O55: the state with a response added has the memory it had. -/
theorem nonWritingCommandsFrame : Obligations.NonWritingCommandsFrame := by
  intro i s t hi h
  obtain ⟨p, rfl⟩ := exists_respond_of_not_writesMemory hi h
  exact ⟨rfl, rfl, rfl, ⟨p, rfl⟩, fun _ => rfl⟩

/-! ### Equal widths (10 R29) -/

/-- Settles O24: the type stands in a command's meaning by its width only. -/
theorem sameWidthTypesAnswerAlike : Obligations.SameWidthTypesAnswerAlike := by
  intro mk hmk t t' n s hW
  simp only [typedCommands, List.mem_cons, List.not_mem_nil, or_false] at hmk
  rcases hmk with rfl | rfl | rfl | rfl | rfl | rfl | rfl | rfl | rfl | rfl | rfl | rfl | rfl | rfl
  all_goals
    simp only [exec, execVmask, execFromp, execNtom, execNtol, execMton, execLton, execPackm, execPackl,
      execUnpkm, execUnpkl, execPacksm, execPacksl, execUnpksm, execUnpksl, packSlice, unpackSlice,
      sizedOperand, valOperand]
    rw [hW]

/-! ### What an answer depends on (10 R33) -/

/-- The outcome with a change made to its next state. -/
def mapNext (f : State → State) : Result → Result
  | .next t => .next (f t)
  | .fault why => .fault why
  | .refused why => .refused why

section mapNext
variable (f : State → State) {s s' : State} {k k' : Result}

theorem mapNext_eq_next {x : Result} {t : State} (h : mapNext f x = .next t) :
    ∃ u, x = .next u ∧ f u = t := by
  cases x
  case next u => exact ⟨u, rfl, Host.Outcome.next.inj h⟩
  case fault => cases h
  case refused => cases h

/-- A check that fails refuses alike in every state. -/
theorem guardWidth_mapNext (limit : Nat) (n : BitVec 7) (hk : k' = mapNext f k) :
    guardWidth limit n s' k' = mapNext f (guardWidth limit n s k) := by
  unfold guardWidth
  split_ifs
  · exact hk
  · rfl

theorem guardSlice_mapNext (hports : s'.ports = s.ports) (hcfg : s'.cfg = s.cfg)
    (hk : k' = mapNext f k) : guardSlice s' k' = mapNext f (guardSlice s k) := by
  unfold guardSlice
  rw [hports, hcfg]
  split_ifs
  · exact hk
  · rfl

end mapNext

/-- The state in a run: other actions pending, other responses before its own. -/
def inRun (pending : List HostAction) (before : List Response) (s : State) : State :=
  { s with pending := pending, responses := before ++ s.responses }

section inRun
variable (cfg : Config) (bm : Memory) (r : Request) (pending : List HostAction) (before : List Response)

theorem packSlice_inRun (f : (W N : Nat) → BitVec W → List Byte) (t : NType) (n : BitVec 7) :
    packSlice f t n ⟨cfg, bm, r, pending, before⟩ =
      mapNext (inRun pending before) (packSlice f t n ⟨cfg, bm, r, [], []⟩) := by
  have hv : sizedOperand t n ⟨cfg, bm, r, pending, before⟩ = sizedOperand t n ⟨cfg, bm, r, [], []⟩ := rfl
  refine guardWidth_mapNext _ _ _ (guardSlice_mapNext _ rfl rfl ?_)
  unfold memWrite
  rw [hv]
  split_ifs
  all_goals rfl

theorem unpackSlice_inRun (f : (W N : Nat) → List Byte → BitVec W) (t : NType) (n : BitVec 7) :
    unpackSlice f t n ⟨cfg, bm, r, pending, before⟩ =
      mapNext (inRun pending before) (unpackSlice f t n ⟨cfg, bm, r, [], []⟩) := by
  refine guardWidth_mapNext _ _ _ (guardSlice_mapNext _ rfl rfl ?_)
  unfold memRead
  split_ifs
  all_goals rfl

/-- A command sees neither what is pending nor the responses before its own. -/
theorem exec_inRun (i : Instr) :
    exec i ⟨cfg, bm, r, pending, before⟩ =
      mapNext (inRun pending before) (exec i ⟨cfg, bm, r, [], []⟩) := by
  cases i
  case mask | ntom | ntol | mton | lton => rfl
  case packsm | packsl => exact packSlice_inRun cfg bm r pending before _ _ _
  case unpksm | unpksl => exact unpackSlice_inRun cfg bm r pending before _ _ _
  all_goals exact guardWidth_mapNext _ _ _ rfl

theorem transaction_inRun :
    transaction ⟨cfg, bm, r, pending, before⟩ =
      mapNext (inRun pending before) (transaction ⟨cfg, bm, r, [], []⟩) := by
  unfold transaction
  cases decode r.cw with
  | error why => rfl
  | ok i => exact exec_inRun cfg bm r pending before i

end inRun

/-- A command that touches no memory sees nothing of it. -/
theorem exec_setBm {i : Instr} (hi : ¬ touchesMemory i) (s : State) (bm : Memory) :
    exec i { s with bm := bm } = mapNext (fun t => { t with bm := bm }) (exec i s) := by
  cases i
  case mask | ntom | ntol | mton | lton => rfl
  case packsm => exact absurd (.inl (.inl rfl)) hi
  case packsl => exact absurd (.inl (.inr rfl)) hi
  case unpksm => exact absurd (.inr (.inl rfl)) hi
  case unpksl => exact absurd (.inr (.inr rfl)) hi
  all_goals exact guardWidth_mapNext _ _ _ rfl

section transact
variable {cfg : Config} {bm : Memory} {r : Request} {t : State}

theorem transact_of_next (h : transaction ⟨cfg, bm, r, [], []⟩ = .next t) :
    transact cfg bm r = (t.bm, t.responses.getLastD .illegal) := by
  rw [transact, h]

/-- An answered transaction is that of the command its word decodes to. -/
theorem exists_exec_of_transaction {s : State} (h : transaction s = .next t) :
    ∃ i, exec i s = .next t := by
  cases hd : decode s.ports.cw with
  | error why => cases (transaction_of_error hd).symm.trans h
  | ok i => exact ⟨i, (transaction_of_decode hd).symm.trans h⟩

/-- `transact` has all that a transaction changes. -/
theorem next_eq_transact (h : transaction ⟨cfg, bm, r, [], []⟩ = .next t) :
    t = ⟨cfg, (transact cfg bm r).1, r, [], [(transact cfg bm r).2]⟩ := by
  obtain ⟨i, hexec⟩ := exists_exec_of_transaction h
  obtain ⟨m, p, rfl⟩ := exec_frame hexec
  rw [transact_of_next h]
  rfl

end transact

/-- Settles O21: the next state is that of the same transaction with nothing else pending, put in its
place in the run. -/
theorem answerDependsOnMemoryAndRequestOnly : Obligations.AnswerDependsOnMemoryAndRequestOnly := by
  refine ⟨fun s t r rest hp h => ?_, fun cfg bm bm' r i hd hw hr => ?_⟩
  · have hrun := transaction_inRun s.cfg s.bm r rest s.responses
    have hstep := step_command s r rest hp
    obtain ⟨u, hu, rfl⟩ := mapNext_eq_next _ (hrun.symm.trans (hstep.symm.trans h))
    exact congrArg (inRun rest s.responses) (next_eq_transact hu)
  · have hset := exec_setBm (not_or.2 ⟨hw, hr⟩) ⟨cfg, bm, r, [], []⟩ bm'
    have hbm := transaction_of_decode (s := ⟨cfg, bm, r, [], []⟩) hd
    have hbm' := transaction_of_decode (s := ⟨cfg, bm', r, [], []⟩) hd
    unfold transact
    rw [hbm, hbm', hset]
    cases hexec : exec i ⟨cfg, bm, r, [], []⟩
    case next t =>
      obtain ⟨p, rfl⟩ := exists_respond_of_not_writesMemory hw hexec
      exact ⟨rfl, rfl⟩
    case fault => exact ⟨rfl, rfl⟩
    case refused => exact ⟨rfl, rfl⟩

end Sys2Proof.Steps

/-! The invariant: it holds after reset, and each operation of the machine keeps it (spec 00 R10, 10 R28,
20 R40, 60 R202). -/

namespace Sys2Proof.Invariant
open Sys2Proof.Machine Sys2Proof.Claims Sys2Proof.Ports Sys2Proof.NativeConversion Sys2Proof.Steps

/-- `State.inv` with its conjuncts named. -/
structure Holds (s : State) : Prop where
  abits : s.cfg.wf = true
  canonical : Memory.wf s.bm = true
  addresses : ∀ c ∈ s.bm, c.1 < s.cfg.space
  ports : s.ports.wf s.cfg = true
  pending : ∀ a ∈ s.pending, a.wf s.cfg = true
  responses : ∀ r ∈ s.responses, r.wf s.cfg = true

theorem inv_iff_holds (s : State) : s.inv = true ↔ Holds s := by
  simp only [State.inv, Bool.and_eq_true, List.all_eq_true, decide_eq_true_eq]
  constructor
  · rintro ⟨⟨⟨⟨⟨habits, hwf⟩, haddr⟩, hports⟩, hpending⟩, hresponses⟩
    exact ⟨habits, hwf, haddr, hports, hpending, hresponses⟩
  · rintro ⟨habits, hwf, haddr, hports, hpending, hresponses⟩
    exact ⟨⟨⟨⟨⟨habits, hwf⟩, haddr⟩, hports⟩, hpending⟩, hresponses⟩

/-! ### Responses a legal command can give -/

/-- At least one byte and at most eight, on lanes that are zero above them. -/
theorem wf_bytes (cfg : Config) {a : List Byte} (h1 : 1 ≤ a.length) (h8 : a.length ≤ 8) :
    (Response.ok (.bytes (lanesOf a) (BitVec.ofNat 4 a.length))).wf cfg = true := by
  have hlen : (BitVec.ofNat 4 a.length).toNat = a.length := Nat.mod_eq_of_lt (by omega)
  simp only [Response.wf, hlen, Bool.and_eq_true, decide_eq_true_eq, List.all_eq_true, Bool.or_eq_true,
    beq_iff_eq]
  refine ⟨⟨h1, h8⟩, fun j _ => ?_⟩
  by_cases hj : j < a.length
  · exact .inl hj
  · exact .inr (lane_lanesOf_of_ge a j (Nat.not_lt.1 hj))

theorem wf_mismatch {t : NType} {n : BitVec 7} {s : State} (hs : Holds s)
    (hn : 1 ≤ n.toNat ∧ n.toNat ≤ t.width) (hl : s.ports.len ≠ bytesFor n.toNat) :
    (Response.bufferSizeMismatch (bytesFor n.toNat) s.ports.len).wf s.cfg = true := by
  obtain ⟨h1, -, h8⟩ := bytesFor_fits t _ hn
  have hports := hs.ports
  simp only [Request.wf, Bool.and_eq_true, decide_eq_true_eq] at hports
  simp [Response.wf, h1, h8, hl, hports.2]

/-! ### Each operation keeps the invariant -/

section operations
variable {s t : State} (hs : Holds s)
include hs

theorem holds_respond {r : Response} (hr : r.wf s.cfg = true) : Holds (s.respond r) where
  __ := hs
  responses := List.forall_mem_append.2 ⟨hs.responses, List.forall_mem_singleton.2 hr⟩

theorem holds_writeBytes {a : Nat} {bs : List Byte} (h : a + bs.length ≤ s.cfg.space) :
    Holds { s with bm := Memory.writeBytes s.bm a bs } where
  __ := hs
  canonical := wf_writeBytes bs s.bm a hs.canonical
  addresses := addresses_writeBytes bs s.bm a _ hs.addresses h

theorem holds_tail {a : HostAction} {rest : List HostAction} (h : s.pending = a :: rest) :
    Holds { s with pending := rest } where
  __ := hs
  pending b hb := hs.pending b (h ▸ List.mem_cons_of_mem a hb)

theorem holds_present {r : Request} {rest : List HostAction} (h : s.pending = .command r :: rest) :
    Holds (s.present r rest) where
  __ := holds_tail hs h
  ports := hs.pending (.command r) (h ▸ List.mem_cons_self)

theorem holds_respondValue {W : Nat} {x : BitVec W} (h : respondValue x s = .next t) : Holds t := by
  cases h
  exact holds_respond hs rfl

theorem holds_respondBytes {a : List Byte} (h1 : 1 ≤ a.length) (h8 : a.length ≤ 8)
    (h : respondBytes a s = .next t) : Holds t := by
  cases h
  exact holds_respond hs (wf_bytes _ h1 h8)

theorem holds_packSlice {f : (W N : Nat) → BitVec W → List Byte} {ty : NType} {n : BitVec 7}
    (h : packSlice f ty n s = .next t) : Holds t := by
  obtain ⟨hn, -, ⟨hl, rfl⟩ | ⟨-, hwrite, rfl⟩⟩ := (packSlice_next _ _ _ _ _).1 h
  · exact holds_respond hs (wf_mismatch hs hn hl)
  · exact holds_respond (holds_writeBytes hs hwrite) rfl

theorem holds_unpackSlice {f : (W N : Nat) → List Byte → BitVec W} {ty : NType} {n : BitVec 7}
    (h : unpackSlice f ty n s = .next t) : Holds t := by
  obtain ⟨hn, -, ⟨hl, rfl⟩ | ⟨-, rfl⟩⟩ := (unpackSlice_next _ _ _ _ _).1 h
  · exact holds_respond hs (wf_mismatch hs hn hl.ne)
  · exact holds_respond hs rfl

theorem holds_exec {i : Instr} (h : exec i s = .next t) : Holds t := by
  cases i
  case mask | mton | lton => exact holds_respondValue hs h
  case nbytes | bitw | vmask | fromp | unpkm | unpkl =>
    obtain ⟨-, h⟩ := (guardWidth_next _ _ _ _ _).1 h
    exact holds_respondValue hs h
  case ntom ty | ntol ty =>
    have hlen : 1 ≤ ty.width / 8 := by cases ty <;> decide
    refine holds_respondBytes hs ?_ ?_ h
    · simpa only [nativeToMsb_length, nativeToLsb_length] using hlen
    · simpa only [nativeToMsb_length, nativeToLsb_length] using typeBytes_le ty
  case packm ty n | packl ty n =>
    obtain ⟨hn, h⟩ := (guardWidth_next _ _ _ _ _).1 h
    obtain ⟨h1, hB, h8⟩ := bytesFor_fits ty _ hn
    refine holds_respondBytes hs ?_ ?_ h
    · simpa only [svToMsb_length _ _ _ hB, svToLsb_length _ _ _ hB] using h1
    · simpa only [svToMsb_length _ _ _ hB, svToLsb_length _ _ _ hB] using h8
  case packsm | packsl => exact holds_packSlice hs h
  case unpksm | unpksl => exact holds_unpackSlice hs h

theorem holds_hostStore {a : Nat} {b : Byte} (h : hostStore a b s = .next t) : Holds t := by
  by_cases ha : a < s.cfg.space
  · cases (hostStore_of_in s b ha).symm.trans h
    exact holds_writeBytes hs ha
  · cases (hostStore_of_out s b (Nat.not_lt.1 ha)).symm.trans h

end operations

/-- Settles O19: `holds_exec` for a request, the rule of its operation for each other action. -/
theorem stepKeepsTheInvariant : Obligations.StepKeepsTheInvariant := by
  intro s t hinv h
  have hs := (inv_iff_holds s).1 hinv
  refine (inv_iff_holds t).2 ?_
  cases hp : s.pending with
  | nil =>
    cases (step_idle s hp).symm.trans h
    exact hs
  | cons a rest =>
    cases a with
    | command r =>
      obtain ⟨i, hexec⟩ := exists_exec_of_transaction ((step_command s r rest hp).symm.trans h)
      exact holds_exec (holds_present hs hp) hexec
    | reset =>
      cases (step_reset s hp).symm.trans h
      exact holds_tail hs hp
    | store a b => exact holds_hostStore (holds_tail hs hp) ((step_store s hp).symm.trans h)

/-- Settles O18: ABITS is 32, the ports are zero, and there is nothing in the lists. -/
theorem resetMeetsTheInvariant : Obligations.ResetMeetsTheInvariant := by
  refine (inv_iff_holds _).2 ⟨rfl, rfl, ?_, rfl, ?_, ?_⟩
  · exact fun _ hc => nomatch hc
  · exact fun _ ha => nomatch ha
  · exact fun _ hr => nomatch hr

end Sys2Proof.Invariant

/-! The pseudo-commands of 30 R84: four other spellings, and SWAP as NTOM then LTON. -/

namespace Sys2Proof.PseudoCommands
open Sys2Proof.Machine Sys2Proof.Claims Sys2Proof.Ports Sys2Proof.Slices Sys2Proof.NativeConversion
open Sys2Proof.Encoding Sys2Proof.DecodeEncode Sys2Proof.Steps

/-! ### Other spellings of a command -/

/-- However a token began, the characters that follow end it in the same way. -/
theorem tokens_of_begun (cs : List Char) :
    ∃ w toks, ∀ acc, acc ≠ [] → tokens cs acc = (acc.reverse ++ w) :: toks := by
  induction cs with
  | nil => exact ⟨[], [], fun acc hacc => by simp [tokens, hacc]⟩
  | cons c cs ih =>
    by_cases hcomment : c = ';'
    · exact ⟨[], [], fun acc hacc => by simp [tokens, hacc, hcomment]⟩
    by_cases hblank : c = ' ' ∨ c = '\t'
    · exact ⟨[], tokens cs [], fun acc hacc => by simp [tokens, hacc, hcomment, hblank]⟩
    by_cases hmark : c = ',' ∨ c = '[' ∨ c = ']'
    · exact ⟨[], [c] :: tokens cs [], fun acc hacc => by simp [tokens, hacc, hcomment, hblank, hmark]⟩
    · obtain ⟨w, toks, hw⟩ := ih
      refine ⟨c :: w, toks, fun acc _ => ?_⟩
      simp [tokens, hcomment, hblank, hmark, hw (c :: acc) (List.cons_ne_nil _ _)]

/-- Text that begins the word of a line and reads as an operation, its type still to come. -/
structure Spells (p : List Char) (op : Op) : Prop where
  nonempty : p ≠ []
  begins : ∀ cs, tokens (p ++ cs) [] = tokens cs p.reverse
  reads : ∀ w, readOp (cutAtDots (p ++ w) []) = some (op, cutAtDots w [])

/-- SWAP is none of the 17 operations, so no spelling of one begins its line. -/
theorem Spells.cut_ne_swap {p : List Char} {op : Op} (h : Spells p op) (w : List Char)
    (ty : List (List Char)) : cutAtDots (p ++ w) [] ≠ ['S', 'W', 'A', 'P'] :: ty := by
  intro hcut
  have hread := h.reads w
  rw [hcut] at hread
  cases hread

/-- Two spellings of one operation begin the same lines. -/
theorem readLine_of_spells {p p' : List Char} {op : Op} (h : Spells p op) (h' : Spells p' op)
    (rest : List Char) : readLine (p ++ rest) = readLine (p' ++ rest) := by
  obtain ⟨w, toks, hw⟩ := tokens_of_begun rest
  have htoks : ∀ {q}, Spells q op → tokens (q ++ rest) [] = (q ++ w) :: toks := fun {q} hq => by
    rw [hq.begins, hw _ (List.reverse_ne_nil_iff.2 hq.nonempty), List.reverse_reverse]
  unfold readLine
  rw [htoks h, htoks h']
  dsimp only
  split
  case h_1 hcut => exact absurd hcut (h.cut_ne_swap w _)
  case h_2 =>
    rw [h.reads]
    symm
    split
    case h_1 hcut => exact absurd hcut (h'.cut_ne_swap w _)
    case h_2 => rw [h'.reads]

/-! Each spelling fixes its characters, so the reader runs through it whatever follows. -/

theorem spells_packm : Spells ['P', 'A', 'C', 'K', 'M', '.'] .packm :=
  ⟨by decide, fun _ => rfl, fun _ => rfl⟩

theorem spells_packl : Spells ['P', 'A', 'C', 'K', 'L', '.'] .packl :=
  ⟨by decide, fun _ => rfl, fun _ => rfl⟩

theorem spells_unpkm : Spells ['U', 'N', 'P', 'K', 'M', '.'] .unpkm :=
  ⟨by decide, fun _ => rfl, fun _ => rfl⟩

theorem spells_unpkl : Spells ['U', 'N', 'P', 'K', 'L', '.'] .unpkl :=
  ⟨by decide, fun _ => rfl, fun _ => rfl⟩

theorem spells_packDotM : Spells ['P', 'A', 'C', 'K', '.', 'M', '.'] .packm :=
  ⟨by decide, fun _ => rfl, fun _ => rfl⟩

theorem spells_packDotL : Spells ['P', 'A', 'C', 'K', '.', 'L', '.'] .packl :=
  ⟨by decide, fun _ => rfl, fun _ => rfl⟩

theorem spells_unpackDotM : Spells ['U', 'N', 'P', 'A', 'C', 'K', '.', 'M', '.'] .unpkm :=
  ⟨by decide, fun _ => rfl, fun _ => rfl⟩

theorem spells_unpackDotL : Spells ['U', 'N', 'P', 'A', 'C', 'K', '.', 'L', '.'] .unpkl :=
  ⟨by decide, fun _ => rfl, fun _ => rfl⟩

/-! ### SWAP (30 R84, 41 R131) -/

/-- The unit's answer to a request with the word of a command (30 R83). -/
theorem transact_of_answersOk {cfg : Config} {bm : Memory} {r : Request} {i : Instr} {p : Payload}
    (hwf : i.wf = true) (hcw : r.cw = encode i) (h : answersOk i ⟨cfg, bm, r, [], []⟩ p) :
    transact cfg bm r = (bm, .ok p) := by
  have hd : decode r.cw = .ok i := hcw ▸ decodeOfEncodeIsTheCommand i hwf
  exact transact_of_next ((transaction_of_decode (s := ⟨cfg, bm, r, [], []⟩) hd).trans h)

/-- A byte list as its entries are written drives the bytes. -/
theorem ofNat_toNat_bytes (a : List Byte) : (a.map BitVec.toNat).map (BitVec.ofNat 8) = a := by
  rw [List.map_map]
  exact List.map_id'' (fun b => (BitVec.ofNat_toNat 8 b).trans (BitVec.setWidth_eq b)) a

/-- The value that `SWAP.t v` reverses (10 R35). -/
def swapOperand (t : NType) (v : Nat) : BitVec t.width := (BitVec.ofNat 64 v).setWidth t.width

/-- The request of its first command. -/
def swapRequest (t : NType) (v : Nat) : Request :=
  { Request.zero with cw := encode (.ntom t), val := BitVec.ofNat 64 v }

/-- The request of its second, with these lanes on BYTES. -/
def swapBackRequest (t : NType) (L : Lanes) : Request :=
  { Request.zero with cw := encode (.lton t), bytes := L }

section assemble
variable (cfg : Config) (t : NType)

theorem assemble_swapFirst {v : Nat} (hv : v < 2 ^ 64) :
    assemble cfg (swapFirst t v) = some (swapRequest t v) := if_pos hv

/-- The lanes NTOM returned, written as a byte list, are driven again. -/
theorem assemble_swapSecond {a : List Byte} (ha : a.length = t.width / 8) :
    assemble cfg (swapSecond t (lanesOf a)) = some (swapBackRequest t (lanesOf a)) := by
  have htake : (lanesOf a).toList.take (t.width / 8) = a :=
    byteOperand_lanesOf ha (typeBytes_le t) State.reset
  have hlen : (a.map BitVec.toNat).length = t.width / 8 := (List.length_map _).trans ha
  have hbytes : (a.map BitVec.toNat).all (· < 256) = true := by
    simpa using fun b _ => BitVec.isLt b
  rw [swapSecond, htake]
  refine (if_pos ⟨hlen, hbytes⟩).trans ?_
  rw [ofNat_toNat_bytes]
  rfl

end assemble

/-- NTOM on the request of the first command. -/
theorem ntom_swapRequest (cfg : Config) (bm : Memory) (t : NType) (v : Nat) :
    answersOk (.ntom t) ⟨cfg, bm, swapRequest t v, [], []⟩
      (.bytes (lanesOf (nativeToMsb t.width (swapOperand t v)))
        (BitVec.ofNat 4 (nativeToMsb t.width (swapOperand t v)).length)) := rfl

/-- Settles O5: the spellings read as one operation, and SWAP answers `swapBytes`. -/
theorem pseudoCommandsExpand : Obligations.PseudoCommandsExpand := by
  refine ⟨readLine_of_spells spells_packDotM spells_packm,
    readLine_of_spells spells_packDotL spells_packl,
    readLine_of_spells spells_unpackDotM spells_unpkm,
    readLine_of_spells spells_unpackDotL spells_unpkl, fun cfg bm t v hv => ?_⟩
  have hW := width_le t
  have hback := lton_ntomBytes t ⟨cfg, bm, swapBackRequest t Request.zero.bytes, [], []⟩ (swapOperand t v)
  refine ⟨_, _, _, _, _, assemble_swapFirst cfg t hv,
    transact_of_answersOk rfl rfl (ntom_swapRequest cfg bm t v),
    assemble_swapSecond cfg t (nativeToMsb_length _ _), transact_of_answersOk rfl rfl hback,
    setWidth64_lt _ hW, fun j hj => ?_⟩
  rw [BitVec.extractLsb'_setWidth_of_le (by omega), swapBytes_slice _ (width_mod t) j hj, swapOperand,
    BitVec.extractLsb'_setWidth_of_le (by omega)]

end Sys2Proof.PseudoCommands
